-- ==== Sys2Proof/Word.lean ====
section
/-! DEFINITION. The widths of spec/00_scope.md R7 and R8: every value is an unsigned bit vector. -/

namespace Sys2Proof

/-- A 32-bit word of the host port (R50) and a command word (R70). -/
abbrev Word := BitVec 32

/-- A 16-bit value: a CRC (R101), a start address, a count (R28, R29), a register word (R37). -/
abbrev Half := BitVec 16

/-- A byte of an RTU frame (R10). -/
abbrev Byte := BitVec 8

/-- A 9-bit word index of the host port (R50). -/
abbrev Index := BitVec 9

end Sys2Proof
end

