-- ==== Sys2Proof/Config.lean ====
section
/-! DEFINITION. The fixed parameters of the block (spec/00_scope.md R7). "No parameter is left open for the block
itself", so there is no free value here. UNVERIFIED (log entry 10): the source's literals are unaudited. -/

namespace Sys2Proof.Config

/-- The CRC's reflected polynomial constant (R7, R101). -/
def crcPoly : Half := 0xA001#16

/-- The CRC's initial value (R7, R102). -/
def crcInit : Half := 0xFFFF#16

/-- The interpreter's 12-bit mask (R7, R170). -/
def mask12 : Half := 0x0FFF#16

/-- The interpreter's 1-bit mask (R7, R170). -/
def mask1 : Half := 0x0001#16

/-- The length of a request frame in bytes (R7, R123), as TX_LEN holds it. -/
def requestLen : BitVec 4 := 8#4

/-- Receive-buffer capacity RX_CAP in bytes (R7, R36): the largest RX_LEN. -/
def rxCap : Nat := 256

end Sys2Proof.Config
end

