-- ==== Sys2Proof/Syntax.lean ====
section
/-! DEFINITION. The commands of the block (spec/30_encoding.md R72, spec/opcode_table.json, one constructor a row)
and the assembler lines that stand for them (R76). -/

namespace Sys2Proof

/-- The commands. An operand's type is its field of the command word (R70, R71), so no operand is out of range. -/
inductive Instr where
  /-- `crc.init` (R104). -/
  | crcInit
  /-- `crc.byte b` (R105). -/
  | crcByte (b : Byte)
  /-- `enc` (R121). -/
  | enc
  /-- `dec n` (R141). -/
  | dec (n : Half)
  /-- `int.pass r` (R172). -/
  | intPass (r : Half)
  /-- `int.mask12 r` (R173). -/
  | intMask12 (r : Half)
  /-- `int.bool1 r` (R174). -/
  | intBool1 (r : Half)
deriving DecidableEq, Repr

/-- The interpreter's modes (R73, R170). -/
inductive InterpMode where
  | pass
  | mask12
  | bool1
deriving DecidableEq, Repr

/-- A line of command source (R76): a mnemonic and, where it has one, an integer literal. -/
inductive AsmLine where
  | crcInit
  | crcByte (b : Int)
  | enc
  | dec (n : Int)
  | intPass (r : Int)
  | intMask12 (r : Int)
  | intBool1 (r : Int)
deriving DecidableEq, Repr

end Sys2Proof
end

