-- ==== Sys2Proof/WellFormed.lean ====
section
/-! DEFINITION. The ranges of R76: "An assembler refuses an operand out of its range." A literal is an integer
(DEDUCED, log entry 8: a negative literal is out of range too). -/

namespace Sys2Proof

/-- `b in 0..255` (R76). -/
def inByteRange (x : Int) : Bool := decide (0 ≤ x) && decide (x ≤ 255)

/-- `n in 0..65535`, `r in 0..65535` (R76). -/
def inHalfRange (x : Int) : Bool := decide (0 ≤ x) && decide (x ≤ 65535)

/-- The operand of the line is in the range R76 gives its mnemonic. -/
def AsmLine.wellFormed : AsmLine → Bool
  | .crcInit => true
  | .crcByte b => inByteRange b
  | .enc => true
  | .dec n => inHalfRange n
  | .intPass r => inHalfRange r
  | .intMask12 r => inHalfRange r
  | .intBool1 r => inHalfRange r

/-- The source line of a command (R76). -/
def Instr.toAsm : Instr → AsmLine
  | .crcInit => .crcInit
  | .crcByte b => .crcByte b.toNat
  | .enc => .enc
  | .dec n => .dec n.toNat
  | .intPass r => .intPass r.toNat
  | .intMask12 r => .intMask12 r.toNat
  | .intBool1 r => .intBool1 r.toNat

/-- A command is well formed when its source line is. (Every `Instr` is: its operands' types carry the ranges.) -/
def Instr.wellFormed (i : Instr) : Bool := i.toAsm.wellFormed

end Sys2Proof
end

