-- ==== Sys2Proof/Decode.lean ====
section
/-! DEFINITION. Command words: the field layout (R70), the opcode map (R72), decoding (R74), the names of what is
illegal (R75), the encoder, and the assembler (R76). -/

namespace Sys2Proof

/-- OP = v[7:0] (R71). -/
def fieldOp (v : Word) : Byte := v.extractLsb' 0 8

/-- B = v[15:8] (R71). -/
def fieldB (v : Word) : Byte := v.extractLsb' 8 8

/-- H = v[31:16] (R71). -/
def fieldH (v : Word) : Half := v.extractLsb' 16 16

/-- A row of the opcode map (R72): it selects the words with `(v & mask) == value`. -/
structure OpcodeRow where
  mask : Word
  value : Word
deriving DecidableEq, Repr

/-- A row selects a word (R72). -/
def OpcodeRow.selects (r : OpcodeRow) (v : Word) : Bool := v &&& r.mask == r.value

/-- The seven rows of R72, in its order: crc.init, crc.byte, enc, dec, int.pass, int.mask12, int.bool1. -/
def opcodeMap : List OpcodeRow :=
  [⟨0xFFFFFFFF#32, 0x00000001#32⟩, ⟨0xFFFF00FF#32, 0x00000002#32⟩, ⟨0xFFFFFFFF#32, 0x00000010#32⟩,
   ⟨0x0000FFFF#32, 0x00000020#32⟩, ⟨0x0000FFFF#32, 0x00000030#32⟩, ⟨0x0000FFFF#32, 0x00000130#32⟩,
   ⟨0x0000FFFF#32, 0x00000230#32⟩]

/-- Why a word selects no command (R75). The names are the model's (DESIGN CHOICE, log entry 7); the block treats
all illegal words alike (R203). -/
inductive Reject where
  /-- An OP value other than 0x01, 0x02, 0x10, 0x20, 0x30 (R75); the all-zero word is one. -/
  | unassignedOp (op : Byte)
  /-- A nonzero bit where the command's row has a fixed 0 (R75). -/
  | nonzeroReserved (op : Byte)
  /-- OP 0x30 with B of 0x03 to 0xFF (R75, R175). -/
  | unassignedMode (b : Byte)
deriving DecidableEq, Repr

/-- What a command word decodes to (R74). -/
inductive Decoded where
  | command (i : Instr)
  | illegal (why : Reject)
deriving DecidableEq, Repr

/-- The name of an illegal word's case (R75). -/
def rejectOf (v : Word) : Reject :=
  if fieldOp v = 0x30#8 then .unassignedMode (fieldB v)
  else if fieldOp v = 0x01#8 ∨ fieldOp v = 0x02#8 ∨ fieldOp v = 0x10#8 ∨ fieldOp v = 0x20#8 then
    .nonzeroReserved (fieldOp v)
  else .unassignedOp (fieldOp v)

/-- Decoding a command word, total on all words (R74). -/
def decode (v : Word) : Decoded :=
  if v = 0x00000001#32 then .command .crcInit
  else if v &&& 0xFFFF00FF#32 = 0x00000002#32 then .command (.crcByte (fieldB v))
  else if v = 0x00000010#32 then .command .enc
  else if v &&& 0x0000FFFF#32 = 0x00000020#32 then .command (.dec (fieldH v))
  else if v &&& 0x0000FFFF#32 = 0x00000030#32 then .command (.intPass (fieldH v))
  else if v &&& 0x0000FFFF#32 = 0x00000130#32 then .command (.intMask12 (fieldH v))
  else if v &&& 0x0000FFFF#32 = 0x00000230#32 then .command (.intBool1 (fieldH v))
  else .illegal (rejectOf v)

/-- The word with fields OP, B and H (R70): `H || B || OP`. -/
def commandWord (op b : Byte) (h : Half) : Word := h ++ b ++ op

/-- The word of a command (R72). -/
def encode : Instr → Word
  | .crcInit => commandWord 0x01#8 0x00#8 0x0000#16
  | .crcByte b => commandWord 0x02#8 b 0x0000#16
  | .enc => commandWord 0x10#8 0x00#8 0x0000#16
  | .dec n => commandWord 0x20#8 0x00#8 n
  | .intPass r => commandWord 0x30#8 0x00#8 r
  | .intMask12 r => commandWord 0x30#8 0x01#8 r
  | .intBool1 r => commandWord 0x30#8 0x02#8 r

/-- The command a source line stands for; none where the assembler refuses the operand (R76). -/
def assemble (l : AsmLine) : Option Instr :=
  if l.wellFormed then
    match l with
    | .crcInit => some .crcInit
    | .crcByte b => some (.crcByte (BitVec.ofInt 8 b))
    | .enc => some .enc
    | .dec n => some (.dec (BitVec.ofInt 16 n))
    | .intPass r => some (.intPass (BitVec.ofInt 16 r))
    | .intMask12 r => some (.intMask12 (BitVec.ofInt 16 r))
    | .intBool1 r => some (.intBool1 (BitVec.ofInt 16 r))
  else none

/-- The interpreter command of a mode on a raw word (R72, R73). -/
def interpCommand : InterpMode → Half → Instr
  | .pass, r => .intPass r
  | .mask12, r => .intMask12 r
  | .bool1, r => .intBool1 r

/-- The 32-bit word of `nbits` table bits `w`, every bit above them 0 (a command is exactly one word, R70). -/
def tableWord (nbits w : Nat) : Word := BitVec.ofNat 32 (w % 2 ^ nbits)

/-- The command the decoder reads from a table word, none where the word is illegal. -/
def decodeTableWord (nbits w : Nat) : Option Instr :=
  match decode (tableWord nbits w) with
  | .command i => some i
  | .illegal _ => none

end Sys2Proof
end

