-- ==== Sys2Proof/Machine/State.lean ====
section
/-! DEFINITION. The state of the block (spec/10_state.md R38), what stands around it (the reset input, the host's
pending accesses, the words returned to the host), and reset (R220). -/

namespace Sys2Proof.Machine

/-- The outcomes a command reports in STATUS (R24, R201). -/
inductive StatusCode where
  /-- No command has run since reset. -/
  | noCommand
  /-- The command completed. -/
  | ok
  /-- `ProtocolError{TooShort}` (R202). -/
  | tooShort
  /-- `ProtocolError{CRCMismatch}` (R202). -/
  | crcMismatch
  /-- The word written to CMD selects no command (R203). -/
  | illegalCmd
deriving DecidableEq, Repr

/-- The type of an interpreted value (R34, R170). -/
inductive ValueKind where
  | integer
  | state
deriving DecidableEq, Repr

/-- The complete state of the block, field by field as R38 lists it. -/
structure Block where
  /-- STATUS.CODE (R24). -/
  status : BitVec 3
  /-- CRC_ACC (R25). -/
  crcAcc : Half
  /-- REQ_ADDR (R26). -/
  reqAddr : Byte
  /-- REQ_FC (R27). -/
  reqFc : Byte
  /-- REQ_START (R28). -/
  reqStart : Half
  /-- REQ_COUNT (R29). -/
  reqCount : Half
  /-- TX_LEN (R30). -/
  txLen : BitVec 4
  /-- RX_LEN (R31). -/
  rxLen : BitVec 9
  /-- DEC_COUNT (R32). -/
  decCount : BitVec 7
  /-- INT_VALUE (R33). -/
  intValue : Half
  /-- INT_KIND (R34). -/
  intKind : BitVec 1
  /-- TXBUF[0..7] (R35). -/
  txbuf : Vector Byte 8
  /-- REGS[0..125] (R37). -/
  regs : Vector Half 126
  /-- RXBUF[0..255] (R36). -/
  rxbuf : Vector Byte 256
deriving DecidableEq, Repr

/-- The block's reset state (R220). -/
def Block.reset : Block where
  status := 0#3
  crcAcc := 0xFFFF#16
  reqAddr := 0x00#8
  reqFc := 0x03#8
  reqStart := 0x0000#16
  reqCount := 0x0001#16
  txLen := 0#4
  rxLen := 0#9
  decCount := 0#7
  intValue := 0x0000#16
  intKind := 0#1
  txbuf := Vector.replicate 8 0#8
  regs := Vector.replicate 126 0#16
  rxbuf := Vector.replicate 256 0#8

/-- The slots of the host port (R51, R52). -/
inductive Slot where
  | cmd
  | status
  | crcAcc
  | reqAddr
  | reqFc
  | reqStart
  | reqCount
  | txLen
  | rxLen
  | decCount
  | intValue
  | intKind
  | txbuf (i : Fin 8)
  | regs (i : Fin 126)
  | rxbuf (i : Fin 256)
  | reserved
deriving DecidableEq, Repr

/-- What the outside world can do to the block: the two port operations (R53, R54) and the reset input (R220, R221). -/
inductive HostAction where
  /-- `PortRead(idx)` (R53). -/
  | read (idx : Index)
  /-- `PortWrite(idx, v)` (R54). -/
  | write (idx : Index) (v : Word)
  /-- The reset input is asserted (R220). -/
  | assertReset
  /-- The reset input is released (R221). -/
  | releaseReset
deriving DecidableEq, Repr

/-- The machine: the block and what stands around it. The last three fields are the model's own (DESIGN CHOICE, log
entries 1, 2, 3); R38 lists the block's. -/
structure State where
  /-- The block (R38). -/
  block : Block
  /-- The level of the reset input (R220, R221). -/
  resetAsserted : Bool
  /-- The host's pending actions, the next one first (R62). -/
  inbox : List HostAction
  /-- The words port reads have returned, in issue order (R53, R62). -/
  replies : List Word
deriving DecidableEq, Repr

/-- Reasons the machine stops with a fault: none. "The block never traps, never halts and never stops accepting
commands" (R200); log entry 6. -/
inductive Fault where
deriving DecidableEq, Repr

/-- Reasons an instruction has no meaning. -/
inductive Refusal where
  /-- The dispatcher would raise it for a command not modelled yet, which is safe: it stops where the block goes on.
  No arm does. -/
  | notModelled (mnemonic : String)
deriving DecidableEq, Repr

/-- What a command or a step answers. -/
abbrev Result := Host.Outcome State Fault Refusal

/-- The machine right after reset: the block as R220 says, the reset input released, nothing pending, nothing read
(DESIGN CHOICE, log entries 1, 2, 3). -/
def State.reset : State where
  block := Block.reset
  resetAsserted := false
  inbox := []
  replies := []

end Sys2Proof.Machine
end

