-- ==== Sys2Proof/Machine/Flags.lean ====
section
/-! DEFINITION. The codes of the block's only condition register, STATUS (R21, R24, R201), and of INT_KIND (R34). -/

namespace Sys2Proof.Machine

/-- The value of STATUS.CODE for an outcome (R24). -/
def StatusCode.code : StatusCode → BitVec 3
  | .noCommand => 0#3
  | .ok => 1#3
  | .tooShort => 2#3
  | .crcMismatch => 3#3
  | .illegalCmd => 4#3

/-- The value of INT_KIND for a kind (R34). -/
def ValueKind.code : ValueKind → BitVec 1
  | .integer => 0#1
  | .state => 1#1

end Sys2Proof.Machine
end

