-- ==== Sys2Proof/Machine/Ops.lean ====
section
/-! DEFINITION. The operations every meaning is built from: byte order (R11), the CRC (R101, R102), the writes of the
block's registers and buffers, and the report of an outcome in STATUS (R9 `raise Status`). -/

namespace Sys2Proof.Machine

/-- v[15:8] (R11). -/
def hi8 (v : Half) : Byte := v.extractLsb' 8 8

/-- v[7:0] (R11). -/
def lo8 (v : Half) : Byte := v.extractLsb' 0 8

/-- High byte first (R11). -/
def be16 (h l : Byte) : Half := (h.setWidth 16 <<< 8) ||| l.setWidth 16

/-- Low byte first (R11). -/
def le16 (l h : Byte) : Half := (h.setWidth 16 <<< 8) ||| l.setWidth 16

/-- One of the eight iterations of R101: the test reads bit 0 before the shift, the XOR follows the shift. -/
def crcIter (c : Half) : Half :=
  if c.getLsbD 0 then (c >>> 1) ^^^ Config.crcPoly else c >>> 1

/-- `k` iterations of R101. -/
def crcIters : Nat → Half → Half
  | 0, c => c
  | k + 1, c => crcIters k (crcIter c)

/-- Fold one byte into the accumulator (R101). -/
def crcStep (c : Half) (b : Byte) : Half := crcIters 8 (c ^^^ b.setWidth 16)

/-- Fold a sequence of bytes into the accumulator, in sequence order (R102). -/
def crcFold (c : Half) (s : List Byte) : Half := s.foldl crcStep c

/-- The CRC of a sequence (R102). -/
def crc16 (s : List Byte) : Half := crcFold Config.crcInit s

/-- `R[STATUS] <- code`. -/
def Block.putStatus (c : StatusCode) (b : Block) : Block := { b with status := c.code }

/-- `R[CRC_ACC] <- v`. -/
def Block.putCrcAcc (v : Half) (b : Block) : Block := { b with crcAcc := v }

/-- `R[REQ_ADDR] <- v`. -/
def Block.putReqAddr (v : Byte) (b : Block) : Block := { b with reqAddr := v }

/-- `R[REQ_FC] <- v`. -/
def Block.putReqFc (v : Byte) (b : Block) : Block := { b with reqFc := v }

/-- `R[REQ_START] <- v`. -/
def Block.putReqStart (v : Half) (b : Block) : Block := { b with reqStart := v }

/-- `R[REQ_COUNT] <- v`. -/
def Block.putReqCount (v : Half) (b : Block) : Block := { b with reqCount := v }

/-- RX_LEN takes the value only where it is a legal length; any other write is ignored (R31). -/
def Block.putRxLen (v : BitVec 9) (b : Block) : Block :=
  if v.toNat ≤ Config.rxCap then { b with rxLen := v } else b

/-- `RXBUF[i] <- v`. -/
def Block.putRxByte (i : Fin 256) (v : Byte) (b : Block) : Block := { b with rxbuf := b.rxbuf.set i v }

/-- All of TXBUF and TX_LEN (R121). -/
def Block.putTxFrame (t : Vector Byte 8) (b : Block) : Block :=
  { b with txbuf := t, txLen := Config.requestLen }

/-- Every REGS entry and DEC_COUNT to 0 (R141). -/
def Block.clearDecoded (b : Block) : Block := { b with regs := Vector.replicate 126 0#16, decCount := 0#7 }

/-- `REGS[k + j] <- ws[j]` for each j, in order (R141). -/
def storeWords : List Half → Nat → Vector Half 126 → Vector Half 126
  | [], _, r => r
  | w :: ws, k, r => storeWords ws (k + 1) (r.setIfInBounds k w)

/-- The words of a successful decode into REGS, and their count into DEC_COUNT (R141). -/
def Block.putDecoded (ws : List Half) (n : Half) (b : Block) : Block :=
  { b with regs := storeWords ws 0 b.regs, decCount := n.setWidth 7 }

/-- INT_KIND and INT_VALUE (R172 to R174). -/
def Block.putInterpreted (r : ValueKind × Half) (b : Block) : Block :=
  { b with intKind := r.1.code, intValue := r.2 }

/-- `raise Status(code)` (R9), and the last write of a command that completes: STATUS takes the code, and the working
copy `b` becomes the block's state at once (R60). This is the block's whole error reporting: there is no trap entry
and no return (R207, R208). -/
def endCommand (c : StatusCode) (b : Block) (s : State) : Result := .next { s with block := b.putStatus c }

end Sys2Proof.Machine
end

