-- ==== Sys2Proof/Machine/Operands.lean ====
section
/-! DEFINITION. Where the commands get their operands: the received frame (R141, R10) and its bytes. The operands of
`enc` are the registers REQ_* (R121); every other operand rides in the command word (R71). -/

namespace Sys2Proof.Machine

/-- `RXBUF[0..R[RX_LEN])`, the received frame (R10, R141). (In a state no run reaches, RX_LEN above 256, it is all of
RXBUF: DESIGN CHOICE, log entry 4.) -/
def rxFrame (b : Block) : List Byte := b.rxbuf.toList.take b.rxLen.toNat

/-- `s[i]` (R10); the rules read it only at i < len(s) (log entry 4). -/
def byteAt (s : List Byte) (i : Nat) : Byte := s.getD i 0#8

/-- `be16(s[3+2k], s[4+2k])`, register word k of a response (R145). -/
def wordAt (s : List Byte) (k : Nat) : Half := be16 (byteAt s (3 + 2 * k)) (byteAt s (4 + 2 * k))

/-- The bytes the response's CRC covers, `s[0..L-2)` (R144). -/
def crcPart (s : List Byte) : List Byte := s.take (s.length - 2)

/-- The response's CRC trailer, `le16(s[L-2], s[L-1])` (R144). -/
def crcTrailer (s : List Byte) : Half := le16 (byteAt s (s.length - 2)) (byteAt s (s.length - 1))

end Sys2Proof.Machine
end

