-- ==== Sys2Proof/Machine/CrcEngine.lean ====
section
/-! DEFINITION. The CRC Engine's commands (spec/40_crc.md). -/

namespace Sys2Proof.Machine

/-- `crc.init` (R104). -/
def execCrcInit (s : State) : Result := endCommand .ok (s.block.putCrcAcc Config.crcInit) s

/-- `crc.byte b` (R105). -/
def execCrcByte (b : Byte) (s : State) : Result :=
  endCommand .ok (s.block.putCrcAcc (crcStep s.block.crcAcc b)) s

end Sys2Proof.Machine
end

