-- ==== Sys2Proof/Machine/FrameDecoder.lean ====
section
/-! DEFINITION. The Frame Decoder / Validator (spec/42_decoder.md): length, then CRC, then extraction, and no header
check (R85). -/

namespace Sys2Proof.Machine

/-- What `decodeResponse` returns (R140). -/
inductive DecodeResult where
  | ok (words : List Half)
  | tooShort
  | crcMismatch
deriving DecidableEq, Repr

/-- The n register words of a response (R145). -/
def extractWords (s : List Byte) (n : Nat) : List Half := (List.range n).map (wordAt s)

/-- The validation sequence (R140). Step 1 is exact arithmetic on naturals (R142). -/
def decodeResponse (s : List Byte) (n : Half) : DecodeResult :=
  if s.length < 3 + 2 * n.toNat then .tooShort
  else if crc16 (crcPart s) ≠ crcTrailer s then .crcMismatch
  else .ok (extractWords s n.toNat)

/-- `dec n` (R141): REGS and DEC_COUNT are cleared first; only a success writes them again. -/
def execDec (n : Half) (s : State) : Result :=
  match decodeResponse (rxFrame s.block) n with
  | .tooShort => endCommand .tooShort s.block.clearDecoded s
  | .crcMismatch => endCommand .crcMismatch s.block.clearDecoded s
  | .ok words => endCommand .ok (s.block.clearDecoded.putDecoded words n) s

end Sys2Proof.Machine
end

