-- ==== Sys2Proof/Machine/FrameEncoder.lean ====
section
/-! DEFINITION. The Frame Encoder (spec/41_encoder.md). It checks none of its operands (R122). -/

namespace Sys2Proof.Machine

/-- The 6-byte payload of a request (R120): start address and count high byte first. -/
def requestPayload (a f : Byte) (s n : Half) : List Byte := [a, f, hi8 s, lo8 s, hi8 n, lo8 n]

/-- The request frame (R120, R80): the payload, then its CRC, low byte first. -/
def buildRequest (a f : Byte) (s n : Half) : Vector Byte 8 :=
  let c := crc16 (requestPayload a f s n)
  #v[a, f, hi8 s, lo8 s, hi8 n, lo8 n, lo8 c, hi8 c]

/-- `enc` (R121). -/
def execEnc (s : State) : Result :=
  endCommand .ok
    (s.block.putTxFrame (buildRequest s.block.reqAddr s.block.reqFc s.block.reqStart s.block.reqCount)) s

end Sys2Proof.Machine
end

