-- ==== Sys2Proof/Machine/Interpreter.lean ====
section
/-! DEFINITION. The Value Interpreter (spec/43_interpreter.md). No shift and no scale (R171); it reads only its operand
(R176). -/

namespace Sys2Proof.Machine

/-- The interpretation rule (R170). -/
def interpret : InterpMode → Half → ValueKind × Half
  | .pass, raw => (.integer, raw)
  | .mask12, raw => (.integer, raw &&& Config.mask12)
  | .bool1, raw => (.state, raw &&& Config.mask1)

/-- `int.pass r` (R172). -/
def execIntPass (r : Half) (s : State) : Result := endCommand .ok (s.block.putInterpreted (interpret .pass r)) s

/-- `int.mask12 r` (R173). -/
def execIntMask12 (r : Half) (s : State) : Result := endCommand .ok (s.block.putInterpreted (interpret .mask12 r)) s

/-- `int.bool1 r` (R174). -/
def execIntBool1 (r : Half) (s : State) : Result := endCommand .ok (s.block.putInterpreted (interpret .bool1 r)) s

end Sys2Proof.Machine
end

