-- ==== Sys2Proof/Machine/Dispatch.lean ====
section
/-! DEFINITION. One arm per command (R74). -/

namespace Sys2Proof.Machine

def exec (i : Instr) (s : State) : Host.Outcome State Fault Refusal :=
  match i with
  | .crcInit => Sys2Proof.Machine.execCrcInit s
  | .crcByte b => Sys2Proof.Machine.execCrcByte b s
  | .enc => Sys2Proof.Machine.execEnc s
  | .dec n => Sys2Proof.Machine.execDec n s
  | .intPass r => Sys2Proof.Machine.execIntPass r s
  | .intMask12 r => Sys2Proof.Machine.execIntMask12 r s
  | .intBool1 r => Sys2Proof.Machine.execIntBool1 r s

end Sys2Proof.Machine
end

