-- ==== Sys2Proof/Machine/Port.lean ====
section
/-! DEFINITION. The host port (spec/20_memory.md): its map, its two operations, the execution of a command word, and
the reset input (spec/70_reset_and_hazards.md R220, R221). -/

namespace Sys2Proof.Machine

/-- The map of the port (R51, R52). -/
def slotOf (idx : Index) : Slot :=
  if idx = 0x000#9 then .cmd
  else if idx = 0x001#9 then .status
  else if idx = 0x002#9 then .crcAcc
  else if idx = 0x003#9 then .reqAddr
  else if idx = 0x004#9 then .reqFc
  else if idx = 0x005#9 then .reqStart
  else if idx = 0x006#9 then .reqCount
  else if idx = 0x007#9 then .txLen
  else if idx = 0x008#9 then .rxLen
  else if idx = 0x009#9 then .decCount
  else if idx = 0x00A#9 then .intValue
  else if idx = 0x00B#9 then .intKind
  else if h : 0x040 ≤ idx.toNat ∧ idx.toNat ≤ 0x047 then .txbuf ⟨idx.toNat - 0x040, by omega⟩
  else if h : 0x080 ≤ idx.toNat ∧ idx.toNat ≤ 0x0FD then .regs ⟨idx.toNat - 0x080, by omega⟩
  else if h : 0x100 ≤ idx.toNat then .rxbuf ⟨idx.toNat - 0x100, by omega⟩
  else .reserved

/-- What a slot reads as: its field, zero-extended (R53, R55). -/
def readSlot (b : Block) : Slot → Word
  | .cmd => 0#32
  | .status => b.status.setWidth 32
  | .crcAcc => b.crcAcc.setWidth 32
  | .reqAddr => b.reqAddr.setWidth 32
  | .reqFc => b.reqFc.setWidth 32
  | .reqStart => b.reqStart.setWidth 32
  | .reqCount => b.reqCount.setWidth 32
  | .txLen => b.txLen.setWidth 32
  | .rxLen => b.rxLen.setWidth 32
  | .decCount => b.decCount.setWidth 32
  | .intValue => b.intValue.setWidth 32
  | .intKind => b.intKind.setWidth 32
  | .txbuf i => b.txbuf[i].setWidth 32
  | .regs i => b.regs[i].setWidth 32
  | .rxbuf i => b.rxbuf[i].setWidth 32
  | .reserved => 0#32

/-- `PortRead(idx)` (R53): it has no side effect. -/
def portRead (idx : Index) (b : Block) : Word := readSlot b (slotOf idx)

/-- `Execute(v)` (R56, R74): the selected command, or ILLEGAL_CMD and nothing else (R203). -/
def execute (v : Word) (s : State) : Result :=
  match decode v with
  | .command i => exec i s
  | .illegal _ => endCommand .illegalCmd s.block s

/-- The state with another block. -/
def setBlock (b : Block) (s : State) : Result := .next { s with block := b }

/-- A write to a slot (R54): CMD executes, a read-write slot takes the low bits of the word, any other slot ignores it. -/
def writeSlot (v : Word) (s : State) : Slot → Result
  | .cmd => execute v s
  | .reqAddr => setBlock (s.block.putReqAddr (v.setWidth 8)) s
  | .reqFc => setBlock (s.block.putReqFc (v.setWidth 8)) s
  | .reqStart => setBlock (s.block.putReqStart (v.setWidth 16)) s
  | .reqCount => setBlock (s.block.putReqCount (v.setWidth 16)) s
  | .rxLen => setBlock (s.block.putRxLen (v.setWidth 9)) s
  | .rxbuf i => setBlock (s.block.putRxByte i (v.setWidth 8)) s
  | .status => .next s
  | .crcAcc => .next s
  | .txLen => .next s
  | .decCount => .next s
  | .intValue => .next s
  | .intKind => .next s
  | .txbuf _ => .next s
  | .regs _ => .next s
  | .reserved => .next s

/-- `PortWrite(idx, v)` (R54). -/
def portWrite (idx : Index) (v : Word) (s : State) : Result := writeSlot v s (slotOf idx)

/-- What a port read returns to the host: 0 while reset is asserted (R221), else the slot (R53). -/
def readReply (idx : Index) (s : State) : Word := if s.resetAsserted then 0#32 else portRead idx s.block

/-- The word a port read returns is handed to the host (R53). -/
def State.reply (w : Word) (s : State) : State := { s with replies := s.replies ++ [w] }

/-- One action of the host: a port access (no effect while reset is asserted, R221), or a change of the reset input
(asserting it puts the whole block into its reset state, R220). -/
def perform (a : HostAction) (s : State) : Result :=
  match a with
  | .read idx => .next (s.reply (readReply idx s))
  | .write idx v => if s.resetAsserted then .next s else portWrite idx v s
  | .assertReset => .next { s with block := Block.reset, resetAsserted := true }
  | .releaseReset => .next { s with resetAsserted := false }

/-- The index of CMD (R51). -/
def cmdIndex : Index := 0x000#9

/-- The port write that issues a command (R56, R76). -/
def issue (i : Instr) : HostAction := .write cmdIndex (encode i)

end Sys2Proof.Machine
end

