-- ==== Sys2Proof/Machine/Step.lean ====
section
/-! DEFINITION. One step: the host's next action (R62, R233); with none pending the block waits (R222). The block
fetches nothing (R20): a command is the word the host writes to CMD (R65). DESIGN CHOICE, log entry 1. -/

namespace Sys2Proof.Machine

/-- One step of the machine. -/
def step (s : State) : Host.Outcome State Fault Refusal :=
  match s.inbox with
  | [] => .next s
  | a :: rest => perform a { s with inbox := rest }

/-- The state in which the host's very next action writes the table word to CMD, the reset input being released. -/
def State.withFetchWord (s : State) (nbits w : Nat) : State :=
  { s with resetAsserted := false, inbox := .write cmdIndex (tableWord nbits w) :: s.inbox }

end Sys2Proof.Machine
end

