-- ==== Sys2Proof/Machine/HostAgent.lean ====
section
/-! DEFINITION. The host agent (spec/70_reset_and_hazards.md section 5, R236): the Poll Orchestrator and the Transport
Adapter driving the block through its port. Its general form is any list of actions in a state's `inbox`; here is the
poll cycle R224 and R235 to R241 oblige it to run. The line's answers are arguments, so a statement holds whatever the
line does (R236: "a model draws them freely"). -/

namespace Sys2Proof.Machine

/-- The names of the three readings (R180). -/
inductive ReadingName where
  | fanSpeed
  | multisensorTemp
  | state
deriving DecidableEq, Repr

/-- "static description of one polled quantity" (R12, R180). -/
structure ReadingSpec where
  name : ReadingName
  startAddress : Half
  registerCount : Half
  mode : InterpMode
deriving DecidableEq, Repr

/-- The reading table's default, in poll order (R180); a parameter of the host, so every definition below takes its
readings as an argument (I9). -/
def readingTable : List ReadingSpec :=
  [⟨.fanSpeed, 0x1101#16, 1#16, .pass⟩, ⟨.multisensorTemp, 0x110B#16, 1#16, .mask12⟩,
   ⟨.state, 0x1201#16, 1#16, .bool1⟩]

/-- What the host owes of a reading (R224): "registerCount ≥ 1; startAddress + registerCount must not overflow 16
bits", read as a sum of at most 0xFFFF. The block checks neither (R122). -/
def ReadingSpec.conforms (r : ReadingSpec) : Bool :=
  decide (1 ≤ r.registerCount.toNat) && decide (r.startAddress.toNat + r.registerCount.toNat ≤ 0xFFFF)

/-- What the transport answers to one exchange (R236): bytes, or a write or read failure (R204). -/
inductive LineAnswer where
  | bytes (s : List Byte)
  | ioError
deriving DecidableEq, Repr

/-- One exchange as the outside world decides it: the line's answer, and the host's clock when the reading's record is
written (R241; DESIGN CHOICE, log entry 11). -/
structure Exchange where
  answer : LineAnswer
  timestamp : Nat
deriving DecidableEq, Repr

/-- "one of {integer, boolean-as-enum("home"/"away")}" (R181). -/
inductive ReadingValue where
  | integer (v : Half)
  | home
  | away
deriving DecidableEq, Repr

/-- Why a reading failed (R240). -/
inductive FailureKind where
  | ioError
  | tooShort
  | crcMismatch
  | illegalCmd
  /-- A STATUS word R240 names no kind for; only an access under reset reads one (DESIGN CHOICE, log entry 12). -/
  | unexpectedStatus (code : Word)
deriving DecidableEq, Repr

/-- An output record (R241) or a diagnostic record (R240). -/
inductive Record where
  | output (name : ReadingName) (value : ReadingValue) (timestamp : Nat)
  | diagnostic (name : ReadingName) (kind : FailureKind)
deriving DecidableEq, Repr

/-- Go on from an answer that is a next state. -/
def andThen {α β : Type} (o : Host.Outcome α Fault Refusal) (f : α → Host.Outcome β Fault Refusal) :
    Host.Outcome β Fault Refusal :=
  match o with
  | .next a => f a
  | .fault r => .fault r
  | .refused r => .refused r

/-- Actions of the host, performed one after the other (R62). -/
def performAll : List HostAction → State → Result
  | [], s => .next s
  | a :: rest, s => andThen (perform a s) (performAll rest)

/-- Port reads, performed one after the other: the state after them. -/
def readAll (idxs : List Index) (s : State) : State := idxs.foldl (fun t idx => t.reply (readReply idx t)) s

/-- The index of STATUS (R51). -/
def statusIndex : Index := 0x001#9

/-- The index of RX_LEN (R51). -/
def rxLenIndex : Index := 0x008#9

/-- The index of INT_VALUE (R51). -/
def intValueIndex : Index := 0x00A#9

/-- The index of INT_KIND (R51). -/
def intKindIndex : Index := 0x00B#9

/-- The index of TXBUF[i] (R51). -/
def txIndex (i : Nat) : Index := BitVec.ofNat 9 (0x040 + i)

/-- The index of REGS[i] (R51). -/
def regsIndex (i : Nat) : Index := BitVec.ofNat 9 (0x080 + i)

/-- The index of RXBUF[i] (R51). -/
def rxIndex (i : Nat) : Index := BitVec.ofNat 9 (0x100 + i)

/-- The indices of a request frame, in the order its bytes go on the line (R58). -/
def txIndices : List Index := (List.range 8).map txIndex

/-- Boot (R224): the configured slave address into REQ_ADDR. -/
def bootActions (slave : Byte) : List HostAction := [.write 0x003#9 (slave.setWidth 32)]

/-- Build a reading's request (R237). -/
def requestActions (r : ReadingSpec) : List HostAction :=
  [.write 0x005#9 (r.startAddress.setWidth 32), .write 0x006#9 (r.registerCount.setWidth 32), issue .enc]

/-- RXBUF[k], RXBUF[k+1], ... from the bytes, in order (R236). -/
def storeBytes : Nat → List Byte → List HostAction
  | _, [] => []
  | k, x :: s => .write (rxIndex k) (x.setWidth 32) :: storeBytes (k + 1) s

/-- Hand a received frame to the block (R231, R236): its bytes into RXBUF[0..L), then RX_LEN = L. -/
def receiveActions (s : List Byte) : List HostAction :=
  storeBytes 0 s ++ [.write rxLenIndex (BitVec.ofNat 32 s.length)]

/-- The bytes one transport read returns: at most 256 (R236 "maxBytes <= 256"; log entry 9). -/
def readLimit (s : List Byte) : List Byte := s.take Config.rxCap

/-- The kind of failure a STATUS word stands for (R240). -/
def failureOf (status : Word) : FailureKind :=
  if status = 2#32 then .tooShort
  else if status = 3#32 then .crcMismatch
  else if status = 4#32 then .illegalCmd
  else .unexpectedStatus status

/-- The output value INT_KIND and INT_VALUE stand for (R181, R241). -/
def valueOf (kind value : Word) : ReadingValue :=
  if kind = 0#32 then .integer (value.setWidth 16) else if value = 0#32 then .home else .away

/-- What one reading leaves: the state, the request bytes, the record. -/
structure PollResult where
  state : State
  /-- The request bytes the host hands to the transport's `write` (R236). On a completed write they are what reaches the
  line; how many reach it where the write fails the spec does not say (DESIGN CHOICE, log entry 14). -/
  sent : List Byte
  record : Record
deriving DecidableEq, Repr

/-- The end of a reading after its `dec` (R237): read STATUS; on OK pass REGS[0] to the reading's interpreter command
and read its result, else record the failure. -/
def concludeReading (r : ReadingSpec) (timestamp : Nat) (sent : List Byte) (s : State) :
    Host.Outcome PollResult Fault Refusal :=
  let status := readReply statusIndex s
  let s1 := s.reply status
  if status = 1#32 then
    let word := readReply (regsIndex 0) s1
    andThen (perform (issue (interpCommand r.mode (word.setWidth 16))) (s1.reply word)) fun s2 =>
      let value := readReply intValueIndex s2
      let s3 := s2.reply value
      let kind := readReply intKindIndex s3
      .next ⟨s3.reply kind, sent, .output r.name (valueOf kind value) timestamp⟩
  else .next ⟨s1, sent, .diagnostic r.name (failureOf status)⟩

/-- One reading (R237): build the request, send it whole before the response is read (R235), hand the response to the
block, decode, interpret, record. A transport failure ends the attempt (R240), and there is no retry (R239).
Where the transport fails, all eight request bytes are recorded in `sent`, also where it is the `write` that failed: the
spec does not say how many reached the line (DESIGN CHOICE, log entry 14). -/
def pollReading (r : ReadingSpec) (x : Exchange) (s : State) : Host.Outcome PollResult Fault Refusal :=
  andThen (performAll (requestActions r) s) fun s1 =>
    let sent := txIndices.map fun idx => (readReply idx s1).setWidth 8
    let s2 := readAll txIndices s1
    match x.answer with
    | .ioError => .next ⟨s2, sent, .diagnostic r.name .ioError⟩
    | .bytes bytes =>
      andThen (performAll (receiveActions (readLimit bytes) ++ [issue (.dec r.registerCount)]) s2)
        (concludeReading r x.timestamp sent)

/-- What a poll cycle leaves: the state, the readings' request bytes (`PollResult.sent`), the records, both in order. -/
structure CycleResult where
  state : State
  sent : List (List Byte)
  records : List Record
deriving DecidableEq, Repr

/-- A poll cycle (R237, R238, R242): the readings in order, each after the one before it is over, whatever it came to. -/
def pollCycle : List (ReadingSpec × Exchange) → State → Host.Outcome CycleResult Fault Refusal
  | [], s => .next ⟨s, [], []⟩
  | (r, x) :: rest, s =>
    andThen (pollReading r x s) fun p =>
      andThen (pollCycle rest p.state) fun c => .next ⟨c.state, p.sent :: c.sent, p.record :: c.records⟩

end Sys2Proof.Machine
end

