-- ==== Sys2Proof/Safety.lean ====
section
/-! DEFINITION. What counts as a safe machine and a safe run, and the vocabulary of the claims: the invariant of the
block's state, the commands' footprints (R61), well-formed responses (R83), the bytes a run streams (R106). -/

namespace Sys2Proof.Machine

/-- What every reachable state of the block meets. -/
structure Block.Inv (b : Block) : Prop where
  /-- "Values 5, 6 and 7 are never produced" (R24). -/
  status_legal : b.status.toNat ≤ 4
  /-- Legal values 0 and 8 (R30). -/
  txLen_legal : b.txLen = 0#4 ∨ b.txLen = 8#4
  /-- Legal values 0 to 256 (R31). -/
  rxLen_legal : b.rxLen.toNat ≤ 256
  /-- Legal values 0 to 126 (R32). -/
  decCount_legal : b.decCount.toNat ≤ 126
  /-- "REGS[N..126) hold 0" (R37). -/
  regs_tail : ∀ i : Fin 126, b.decCount.toNat ≤ i.val → b.regs[i] = 0#16
  /-- After a failed `dec` DEC_COUNT is 0 (R146), and so every REGS entry. -/
  failed_decode : b.status = 2#3 ∨ b.status = 3#3 → b.decCount = 0#7
  /-- A STATE value is 0 or 1 (R34). -/
  state_value : b.intKind = 1#1 → b.intValue = 0#16 ∨ b.intValue = 1#16
  /-- TX_LEN 0: no request has been built, and TXBUF holds its reset zeros (R30, R35). -/
  tx_empty : b.txLen = 0#4 → b.txbuf = Vector.replicate 8 0#8
  /-- TX_LEN 8: TXBUF holds a request frame (R35, R120). -/
  tx_frame : b.txLen = 8#4 → ∃ a f s n, b.txbuf = buildRequest a f s n
  /-- STATUS NONE: no command since reset (R24), so what only commands write is as reset left it. -/
  no_command : b.status = 0#3 →
    b.crcAcc = 0xFFFF#16 ∧ b.txLen = 0#4 ∧ b.decCount = 0#7 ∧ b.intValue = 0#16 ∧ b.intKind = 0#1

/-- What every reachable state of the machine meets: the block's invariant, and R220's state while reset is asserted. -/
structure State.Inv (s : State) : Prop where
  block_inv : s.block.Inv
  under_reset : s.resetAsserted = true → s.block = Block.reset

/-- A run of `k` steps that stops at no fault and no refusal. -/
def RunsSafely (k : Nat) (s : State) : Prop := ∃ t, Sys2Proof.core.run k s = .next t

/-- The slots a command may write (R61). -/
def writesSlot : Instr → Slot → Bool
  | .crcInit, .crcAcc => true
  | .crcByte _, .crcAcc => true
  | .enc, .txbuf _ => true
  | .enc, .txLen => true
  | .dec _, .regs _ => true
  | .dec _, .decCount => true
  | .intPass _, .intValue => true
  | .intPass _, .intKind => true
  | .intMask12 _, .intValue => true
  | .intMask12 _, .intKind => true
  | .intBool1 _, .intValue => true
  | .intBool1 _, .intKind => true
  | _, .status => true
  | _, _ => false

/-- The bits of a written word that a read-write slot keeps (R54, R55); RX_LEN, which keeps them on a condition (R31),
is not one of these. -/
def keptBits : Slot → Option Word
  | .reqAddr => some 0x000000FF#32
  | .reqFc => some 0x000000FF#32
  | .reqStart => some 0x0000FFFF#32
  | .reqCount => some 0x0000FFFF#32
  | .rxbuf _ => some 0x000000FF#32
  | _ => none

/-- The body of a response: three header bytes, then the register words, high byte first (R83, R84). -/
def responseBody (h0 h1 h2 : Byte) (ws : List Half) : List Byte :=
  [h0, h1, h2] ++ ws.flatMap fun w => [hi8 w, lo8 w]

/-- A response with a correct CRC: the body, then its CRC, low byte first (R83). -/
def wellFormedResponse (h0 h1 h2 : Byte) (ws : List Half) : List Byte :=
  let c := crc16 (responseBody h0 h1 h2 ws)
  responseBody h0 h1 h2 ws ++ [lo8 c, hi8 c]

/-- The block holds the frame `s` in RXBUF[0..RX_LEN) (R231). -/
def Block.holds (b : Block) (s : List Byte) : Prop := b.rxLen.toNat = s.length ∧ rxFrame b = s

/-- The byte an action folds into CRC_ACC, if it is a `crc.byte` (R105). -/
def streamedByte : HostAction → Option Byte
  | .write idx v =>
    if idx = cmdIndex then
      match decode v with
      | .command (.crcByte b) => some b
      | _ => none
    else none
  | _ => none

/-- The bytes a list of actions streams, in order (R106). -/
def streamedBytes (l : List HostAction) : List Byte := l.filterMap streamedByte

/-- An action that leaves a CRC stream open: neither a `crc.init` nor a reset (R106). -/
def keepsStream (a : HostAction) : Bool := a != .assertReset && a != issue .crcInit

/-- The output value of a raw register word in a reading's mode (R170, R181). -/
def readingValue : InterpMode → Half → ReadingValue
  | .pass, w => .integer w
  | .mask12, w => .integer (BitVec.ofNat 16 (w.toNat % 4096))
  | .bool1, w => if w.getLsbD 0 then .away else .home

end Sys2Proof.Machine
end

