-- ==== Sys2Proof/Certificates/Slice0/Obligations.lean ====
section
/-! DEFINITION. The statements for the provers, from the spec's numbered rules. Where a statement rests on a choice of
the model, its docstring names the log entry; where it rests on a rule the spec marks as its own inference, the docstring
says "the spec derives". That a step takes the head of `inbox`, and that a read's word goes to `replies`, is the model's
form of the port throughout (log entries 1, 2), as is the reset input's level (log entry 3). -/

open Sys2Proof Sys2Proof.Machine

/-! Reset and the reset input. -/

/-- R220: asserting the reset input, in any state, puts every piece of the block's state into the listed value, and
CMD, which has no storage, reads 0. -/
def Obligations.AssertedResetPutsListedValues : Prop :=
  ∀ (s : State) (rest : List HostAction), s.inbox = .assertReset :: rest →
    ∃ t, step s = .next t ∧ t.resetAsserted = true ∧ t.inbox = rest ∧ t.replies = s.replies ∧
      t.block = State.reset.block ∧
      t.block.status = 0#3 ∧ t.block.crcAcc = 0xFFFF#16 ∧ t.block.reqAddr = 0x00#8 ∧ t.block.reqFc = 0x03#8 ∧
      t.block.reqStart = 0x0000#16 ∧ t.block.reqCount = 0x0001#16 ∧ t.block.txLen = 0#4 ∧ t.block.rxLen = 0#9 ∧
      t.block.decCount = 0#7 ∧ t.block.intValue = 0x0000#16 ∧ t.block.intKind = 0#1 ∧
      (∀ i : Fin 8, t.block.txbuf[i] = 0x00#8) ∧ (∀ i : Fin 126, t.block.regs[i] = 0x0000#16) ∧
      (∀ i : Fin 256, t.block.rxbuf[i] = 0x00#8) ∧ portRead 0x000#9 t.block = 0#32

/-- R221: while reset is asserted a port access has no effect and a read returns 0; the reset input, asserted between
two accesses, leaves exactly the reset block. -/
def Obligations.AccessUnderResetHasNoEffect : Prop :=
  (∀ (s : State) (rest : List HostAction), s.inbox = .assertReset :: rest →
    step s = .next { s with block := Block.reset, resetAsserted := true, inbox := rest }) ∧
  (∀ (s : State) (idx : Index) (rest : List HostAction), s.resetAsserted = true → s.inbox = .read idx :: rest →
    step s = .next { s with inbox := rest, replies := s.replies ++ [0#32] }) ∧
  (∀ (s : State) (idx : Index) (v : Word) (rest : List HostAction), s.resetAsserted = true →
    s.inbox = .write idx v :: rest → step s = .next { s with inbox := rest })

/-- From R222 and R213: with no action pending the block waits, unchanged, and releasing the reset input changes
nothing but its level. That a step with nothing pending answers the same state is the model's choice (log entry 1), as
is the input's level being a field (log entry 3). -/
def Obligations.IdleBlockWaits : Prop :=
  (∀ s : State, s.inbox = [] → step s = .next s) ∧
  (∀ (s : State) (rest : List HostAction), s.inbox = .releaseReset :: rest →
    step s = .next { s with resetAsserted := false, inbox := rest })

/-- What every port index reads right after reset (95_test_vectors.md V7): 0 but for CRC_ACC, REQ_FC and REQ_COUNT. -/
def Obligations.PortImageAfterReset : Prop :=
  ∀ idx : Index, portRead idx State.reset.block =
    if idx = 0x002#9 then 0x0000FFFF#32 else if idx = 0x004#9 then 3#32 else if idx = 0x006#9 then 1#32 else 0#32

/-- The spec derives (R223): after reset every command is usable: `crc.byte` with no `crc.init` computes `crc16` of
the streamed bytes, `enc` builds 00 03 00 00 00 01 85 DB, and `dec n` reports TOO_SHORT. -/
def Obligations.CommandsUsableAfterReset : Prop :=
  (∀ i : Instr, ∃ t, exec i State.reset = .next t) ∧
  (∀ bytes : List Byte, ∃ t,
    Sys2Proof.core.run bytes.length { State.reset with inbox := bytes.map fun b => issue (.crcByte b) } = .next t ∧
    State.inbox t = [] ∧ (State.block t).crcAcc = crc16 bytes) ∧
  (∃ t, exec .enc State.reset = .next t ∧
    t.block.txbuf = #v[0x00#8, 0x03#8, 0x00#8, 0x00#8, 0x00#8, 0x01#8, 0x85#8, 0xDB#8]) ∧
  (∀ n : Half, ∃ t, exec (.dec n) State.reset = .next t ∧ t.block.status = 2#3)

/-! The host port. -/

/-- R53: a port read returns the listed value and has no side effect on the block. (That the value is handed to the
host through `replies` is the model's choice, log entry 2.) -/
def Obligations.PortReadFollowsMap : Prop :=
  ∀ (s : State) (idx : Index) (rest : List HostAction), s.resetAsserted = false → s.inbox = .read idx :: rest →
    ∃ w : Word, step s = .next { s with inbox := rest, replies := s.replies ++ [w] } ∧
      (idx.toNat = 0x000 → w.toNat = 0) ∧
      (idx.toNat = 0x001 → w.toNat = s.block.status.toNat) ∧
      (idx.toNat = 0x002 → w.toNat = s.block.crcAcc.toNat) ∧
      (idx.toNat = 0x003 → w.toNat = s.block.reqAddr.toNat) ∧
      (idx.toNat = 0x004 → w.toNat = s.block.reqFc.toNat) ∧
      (idx.toNat = 0x005 → w.toNat = s.block.reqStart.toNat) ∧
      (idx.toNat = 0x006 → w.toNat = s.block.reqCount.toNat) ∧
      (idx.toNat = 0x007 → w.toNat = s.block.txLen.toNat) ∧
      (idx.toNat = 0x008 → w.toNat = s.block.rxLen.toNat) ∧
      (idx.toNat = 0x009 → w.toNat = s.block.decCount.toNat) ∧
      (idx.toNat = 0x00A → w.toNat = s.block.intValue.toNat) ∧
      (idx.toNat = 0x00B → w.toNat = s.block.intKind.toNat) ∧
      (∀ i : Fin 8, idx.toNat = 0x040 + i.val → w.toNat = s.block.txbuf[i].toNat) ∧
      (∀ i : Fin 126, idx.toNat = 0x080 + i.val → w.toNat = s.block.regs[i].toNat) ∧
      (∀ i : Fin 256, idx.toNat = 0x100 + i.val → w.toNat = s.block.rxbuf[i].toNat) ∧
      (0x00C ≤ idx.toNat ∧ idx.toNat ≤ 0x03F ∨ 0x048 ≤ idx.toNat ∧ idx.toNat ≤ 0x07F ∨
        0x0FE ≤ idx.toNat ∧ idx.toNat ≤ 0x0FF → w.toNat = 0)

/-- R54: a port write changes state as listed and in no other way: CMD executes, the read-write registers and RXBUF
take the low bits, RX_LEN only a length of at most 256, and every other index is ignored. -/
def Obligations.PortWriteFollowsMap : Prop :=
  ∀ (s : State) (idx : Index) (v : Word) (rest : List HostAction), s.resetAsserted = false →
    s.inbox = .write idx v :: rest →
    (idx.toNat = 0x000 → step s = execute v { s with inbox := rest }) ∧
    (idx.toNat = 0x003 →
      step s = .next { s with inbox := rest, block := { s.block with reqAddr := BitVec.ofNat 8 v.toNat } }) ∧
    (idx.toNat = 0x004 →
      step s = .next { s with inbox := rest, block := { s.block with reqFc := BitVec.ofNat 8 v.toNat } }) ∧
    (idx.toNat = 0x005 →
      step s = .next { s with inbox := rest, block := { s.block with reqStart := BitVec.ofNat 16 v.toNat } }) ∧
    (idx.toNat = 0x006 →
      step s = .next { s with inbox := rest, block := { s.block with reqCount := BitVec.ofNat 16 v.toNat } }) ∧
    (idx.toNat = 0x008 → v.toNat % 512 ≤ 256 →
      step s = .next { s with inbox := rest, block := { s.block with rxLen := BitVec.ofNat 9 v.toNat } }) ∧
    (idx.toNat = 0x008 → 256 < v.toNat % 512 → step s = .next { s with inbox := rest }) ∧
    (∀ i : Fin 256, idx.toNat = 0x100 + i.val →
      step s = .next { s with
        inbox := rest, block := { s.block with rxbuf := s.block.rxbuf.set i (BitVec.ofNat 8 v.toNat) } }) ∧
    (idx.toNat = 0x001 ∨ idx.toNat = 0x002 ∨ idx.toNat = 0x007 ∨ 0x009 ≤ idx.toNat ∧ idx.toNat ≤ 0x0FF →
      step s = .next { s with inbox := rest })

/-- From R22 and R38: no state of the block is hidden from the port: two blocks that read alike at every index are
equal. -/
def Obligations.PortReadsDetermineBlock : Prop :=
  ∀ a b : Block, (∀ idx : Index, portRead idx a = portRead idx b) → a = b

/-- From R62, R225 and R55: a read right after a write to a read-write slot returns the bits the slot keeps of the
written word. -/
def Obligations.WrittenValueVisibleToNextRead : Prop :=
  ∀ (s : State) (idx : Index) (v kept : Word) (rest : List HostAction), s.resetAsserted = false →
    keptBits (slotOf idx) = some kept → s.inbox = .write idx v :: .read idx :: rest →
    ∃ t, Sys2Proof.core.run 2 s = .next t ∧ State.inbox t = rest ∧ State.replies t = s.replies ++ [v &&& kept]

/-- From R54: a write to any index but CMD leaves what every other index reads. -/
def Obligations.WriteLeavesOtherIndices : Prop :=
  ∀ (s : State) (idx other : Index) (v : Word) (rest : List HostAction), idx ≠ 0x000#9 → other ≠ idx →
    s.inbox = .write idx v :: rest →
    ∃ t, step s = .next t ∧ portRead other t.block = portRead other s.block

/-- From R59: writing the same value twice to any index but CMD leaves the same state as writing it once; a `crc.byte`
issued twice does not. -/
def Obligations.OnlyCommandWritesAreNotIdempotent : Prop :=
  (∀ (s t : State) (idx : Index) (v : Word), idx ≠ 0x000#9 → perform (.write idx v) s = .next t →
    perform (.write idx v) t = .next t) ∧
  (∃ (s t u : State) (b : Byte), perform (issue (.crcByte b)) s = .next t ∧ perform (issue (.crcByte b)) t = .next u ∧
    t.block.crcAcc ≠ u.block.crcAcc)

/-! Encoding. -/

/-- Decoding an encoded command gives it back, every operand at every value. -/
def Obligations.DecodeOfEncode : Prop := ∀ i : Instr, decode (encode i) = .command i

/-- Each legal word is the encoding of the command it decodes to, so no two words mean one command. -/
def Obligations.EncodeOfDecode : Prop := ∀ (v : Word) (i : Instr), decode v = .command i → encode i = v

/-- R72: a word selects a command exactly when `(v & mask) == match` for that command's row, the rows are disjoint,
and every other word is illegal. -/
def Obligations.OpcodeMapSelectsCommands : Prop :=
  (∀ v : Word, decode v = .command .crcInit ↔ v &&& 0xFFFFFFFF#32 = 0x00000001#32) ∧
  (∀ v : Word, (∃ b, decode v = .command (.crcByte b)) ↔ v &&& 0xFFFF00FF#32 = 0x00000002#32) ∧
  (∀ v : Word, decode v = .command .enc ↔ v &&& 0xFFFFFFFF#32 = 0x00000010#32) ∧
  (∀ v : Word, (∃ n, decode v = .command (.dec n)) ↔ v &&& 0x0000FFFF#32 = 0x00000020#32) ∧
  (∀ v : Word, (∃ r, decode v = .command (.intPass r)) ↔ v &&& 0x0000FFFF#32 = 0x00000030#32) ∧
  (∀ v : Word, (∃ r, decode v = .command (.intMask12 r)) ↔ v &&& 0x0000FFFF#32 = 0x00000130#32) ∧
  (∀ v : Word, (∃ r, decode v = .command (.intBool1 r)) ↔ v &&& 0x0000FFFF#32 = 0x00000230#32) ∧
  (∀ (v : Word) (b : Byte), decode v = .command (.crcByte b) → b.toNat = v.toNat / 2 ^ 8 % 2 ^ 8) ∧
  (∀ (v : Word) (n : Half),
    (decode v = .command (.dec n) ∨ decode v = .command (.intPass n) ∨ decode v = .command (.intMask12 n) ∨
      decode v = .command (.intBool1 n)) → n.toNat = v.toNat / 2 ^ 16) ∧
  (∀ (j k : Fin opcodeMap.length) (v : Word), opcodeMap[j].selects v = true → opcodeMap[k].selects v = true → j = k) ∧
  (∀ v : Word, (∃ why, decode v = .illegal why) ↔ ∀ r ∈ opcodeMap, r.selects v = false)

/-- R75: which words are illegal, field by field, and that an illegal word written to CMD raises ILLEGAL_CMD and
changes nothing else. -/
def Obligations.IllegalWordsByField : Prop :=
  (∀ v : Word, (∃ why, decode v = .illegal why) ↔
    (v.toNat % 256 ≠ 0x01 ∧ v.toNat % 256 ≠ 0x02 ∧ v.toNat % 256 ≠ 0x10 ∧ v.toNat % 256 ≠ 0x20 ∧
      v.toNat % 256 ≠ 0x30) ∨
    ((v.toNat % 256 = 0x01 ∨ v.toNat % 256 = 0x10) ∧ (v.toNat / 256 % 256 ≠ 0 ∨ v.toNat / 65536 ≠ 0)) ∨
    (v.toNat % 256 = 0x02 ∧ v.toNat / 65536 ≠ 0) ∨
    (v.toNat % 256 = 0x20 ∧ v.toNat / 256 % 256 ≠ 0) ∨
    (v.toNat % 256 = 0x30 ∧ 3 ≤ v.toNat / 256 % 256)) ∧
  (∀ (s : State) (v : Word) (why : Reject) (rest : List HostAction), decode v = .illegal why →
    s.resetAsserted = false → s.inbox = .write 0x000#9 v :: rest →
    step s = .next { s with inbox := rest, block := { s.block with status := 4#3 } })

/-- Words written out from the spec's encodings (R72; 95_test_vectors.md V5, V6), one or more of each command, and
some illegal ones. -/
def Obligations.SpecWordsDecode : Prop :=
  decode 0b00000000000000000000000000000001#32 = .command .crcInit ∧
  decode 0b00000000000000001010101100000010#32 = .command (.crcByte 0xAB#8) ∧
  decode 0b00000000000000000000000000010000#32 = .command .enc ∧
  decode 0b00000000000000010000000000100000#32 = .command (.dec 1#16) ∧
  decode 0b00000000001010100000000000110000#32 = .command (.intPass 0x002A#16) ∧
  decode 0b11110001001000110000000100110000#32 = .command (.intMask12 0xF123#16) ∧
  decode 0b11111111111111100000001000110000#32 = .command (.intBool1 0xFFFE#16) ∧
  decode 0x00000000#32 = .illegal (.unassignedOp 0x00#8) ∧
  decode 0x00000101#32 = .illegal (.nonzeroReserved 0x01#8) ∧
  decode 0x00AB0002#32 = .illegal (.nonzeroReserved 0x02#8) ∧
  decode 0x00010120#32 = .illegal (.nonzeroReserved 0x20#8) ∧
  decode 0x12340330#32 = .illegal (.unassignedMode 0x03#8)

/-- From R76: each mnemonic expands to one write of its word to CMD, the word assembled with the given shifts, and the
assembler refuses an operand out of its range. That a negative literal is one, and so is refused, is the model's
deduction (log entry 8). -/
def Obligations.AssemblerExpandsToCommandWrites : Prop :=
  (∀ i : Instr, issue i = .write 0x000#9 (encode i)) ∧
  (assemble .crcInit).map encode = some 0x00000001#32 ∧
  (assemble .enc).map encode = some 0x00000010#32 ∧
  (∀ b : Nat, b ≤ 255 → (assemble (.crcByte b)).map encode = some (BitVec.ofNat 32 (b <<< 8 ||| 0x02))) ∧
  (∀ n : Nat, n ≤ 65535 → (assemble (.dec n)).map encode = some (BitVec.ofNat 32 (n <<< 16 ||| 0x20))) ∧
  (∀ r : Nat, r ≤ 65535 → (assemble (.intPass r)).map encode = some (BitVec.ofNat 32 (r <<< 16 ||| 0x0030))) ∧
  (∀ r : Nat, r ≤ 65535 → (assemble (.intMask12 r)).map encode = some (BitVec.ofNat 32 (r <<< 16 ||| 0x0130))) ∧
  (∀ r : Nat, r ≤ 65535 → (assemble (.intBool1 r)).map encode = some (BitVec.ofNat 32 (r <<< 16 ||| 0x0230))) ∧
  (∀ b : Int, b < 0 ∨ 255 < b → assemble (.crcByte b) = none) ∧
  (∀ x : Int, x < 0 ∨ 65535 < x →
    assemble (.dec x) = none ∧ assemble (.intPass x) = none ∧ assemble (.intMask12 x) = none ∧
      assemble (.intBool1 x) = none)

/-! The step. -/

/-- R56: a write of a word to CMD executes the command it decodes to, whole, before the host's next access, or raises
ILLEGAL_CMD. The step is `exec` at the state whose next action is the one after the write. -/
def Obligations.StepRunsDecodedCommand : Prop :=
  ∀ (s : State) (v : Word) (rest : List HostAction), s.resetAsserted = false →
    s.inbox = .write 0x000#9 v :: rest →
    (∀ i : Instr, decode v = .command i → step s = exec i { s with inbox := rest }) ∧
    (∀ why : Reject, decode v = .illegal why →
      ∃ t, step s = .next t ∧ t.block = { s.block with status := 4#3 } ∧ t.inbox = rest)

/-- R203: an illegal word written to CMD writes ILLEGAL_CMD to STATUS and keeps every other register and buffer. -/
def Obligations.IllegalCommandChangesOnlyStatus : Prop :=
  ∀ (s : State) (v : Word) (rest : List HostAction), (∀ i : Instr, decode v ≠ .command i) →
    s.resetAsserted = false → s.inbox = .write 0x000#9 v :: rest →
    ∃ t, step s = .next t ∧ t.inbox = rest ∧ t.replies = s.replies ∧ t.resetAsserted = false ∧
      portRead 0x001#9 t.block = 4#32 ∧ ∀ idx : Index, idx ≠ 0x001#9 → portRead idx t.block = portRead idx s.block

/-- From R200: the block never traps, halts or stops accepting commands: every command, every action and every run of
any length answers a next state. -/
def Obligations.BlockNeverStops : Prop :=
  (∀ (i : Instr) (s : State), ∃ t, exec i s = .next t) ∧ (∀ s : State, ∃ t, step s = .next t) ∧
  (∀ (k : Nat) (s : State), RunsSafely k s)

/-- The word `withFetchWord` places is the one the next step executes (the model's own interface, log entry 1). -/
def Obligations.FetchWordRunsItsCommand : Prop :=
  ∀ (s : State) (i : Instr),
    step (s.withFetchWord 32 (encode i).toNat) = exec i { s with resetAsserted := false } ∧
    decodeTableWord 32 (encode i).toNat = some i

/-! The commands. -/

/-- R104, `crc.init`: its word, its effect, that it writes nothing but CRC_ACC and STATUS, and that OP 0x01 with any
other bit set is illegal, and so writes STATUS alone. -/
def Obligations.CrcInitStartsStream : Prop :=
  decode 0x00000001#32 = .command .crcInit ∧
  (∀ (v : Word) (s : State), v.toNat % 256 = 0x01 → v ≠ 0x00000001#32 →
    execute v s = .next { s with block := { s.block with status := 4#3 } }) ∧
  (∀ s : State, exec .crcInit s = .next { s with block := { s.block with crcAcc := 0xFFFF#16, status := 1#3 } })

/-- R105, `crc.byte b`: its word, its effect, that it writes nothing but CRC_ACC and STATUS, that OP 0x02 with a
nonzero H is illegal (and so writes STATUS alone), and the rule's corner cases, which the spec derives from R101, and
its example. -/
def Obligations.CrcByteFoldsByte : Prop :=
  (∀ b : Byte, decode (b.setWidth 32 <<< 8 ||| 0x00000002#32) = .command (.crcByte b)) ∧
  (∀ (v : Word) (s : State), v.toNat % 256 = 0x02 → v.toNat / 65536 ≠ 0 →
    execute v s = .next { s with block := { s.block with status := 4#3 } }) ∧
  (∀ (b : Byte) (s : State), exec (.crcByte b) s =
    .next { s with block := { s.block with crcAcc := crcStep s.block.crcAcc b, status := 1#3 } }) ∧
  crcStep 0x0000#16 0x00#8 = 0x0000#16 ∧ crcStep 0xFFFF#16 0xFF#8 = 0x00FF#16 ∧
  crcStep 0x0001#16 0x00#8 = 0xC0C1#16 ∧ crcStep 0x8000#16 0x00#8 = 0x0080#16 ∧
  crcStep 0xFFFF#16 0x00#8 = 0x40BF#16 ∧ crcStep 0xFFFF#16 0x01#8 = 0x807E#16

/-- R120, R121, `enc`: the eight bytes of the frame, TX_LEN, STATUS, that nothing else changes, that a second `enc`
rebuilds the identical frame, that OP 0x10 with any other bit set is illegal (and so writes STATUS alone), and the
rule's example. No value of the request registers is excluded (R122). -/
def Obligations.EncBuildsRequestFrame : Prop :=
  decode 0x00000010#32 = .command .enc ∧
  (∀ (v : Word) (s : State), v.toNat % 256 = 0x10 → v ≠ 0x00000010#32 →
    execute v s = .next { s with block := { s.block with status := 4#3 } }) ∧
  (∀ s : State, ∃ t, exec .enc s = .next t ∧
    t = { s with block := { s.block with txbuf := t.block.txbuf, txLen := 8#4, status := 1#3 } } ∧
    t.block.txbuf = buildRequest s.block.reqAddr s.block.reqFc s.block.reqStart s.block.reqCount ∧
    t.block.txbuf[0].toNat = s.block.reqAddr.toNat ∧
    t.block.txbuf[1].toNat = s.block.reqFc.toNat ∧
    t.block.txbuf[2].toNat = s.block.reqStart.toNat / 256 ∧
    t.block.txbuf[3].toNat = s.block.reqStart.toNat % 256 ∧
    t.block.txbuf[4].toNat = s.block.reqCount.toNat / 256 ∧
    t.block.txbuf[5].toNat = s.block.reqCount.toNat % 256 ∧
    t.block.txbuf[6].toNat = (crc16 (t.block.txbuf.toList.take 6)).toNat % 256 ∧
    t.block.txbuf[7].toNat = (crc16 (t.block.txbuf.toList.take 6)).toNat / 256 ∧
    exec .enc t = .next t) ∧
  buildRequest 0x01#8 0x03#8 0x1101#16 0x0001#16 =
    #v[0x01#8, 0x03#8, 0x11#8, 0x01#8, 0x00#8, 0x01#8, 0xD0#8, 0xF6#8]

/-- R142, R143: `dec n` on a frame shorter than 3 + 2n, computed exactly, reports TOO_SHORT, whatever its CRC (and
zeroes REGS and DEC_COUNT and changes nothing else); on any frame at least that long, the CRC bytes not counted, it
does not. -/
def Obligations.DecTooShort : Prop :=
  (∀ (s : State) (n : Half), s.block.rxLen.toNat ≤ 256 → s.block.rxLen.toNat < 3 + 2 * n.toNat →
    exec (.dec n) s = .next { s with block := { s.block with
      regs := Vector.replicate 126 0#16, decCount := 0#7, status := 2#3 } }) ∧
  (∀ (s : State) (n : Half), s.block.rxLen.toNat ≤ 256 → 3 + 2 * n.toNat ≤ s.block.rxLen.toNat →
    ∃ t, exec (.dec n) s = .next t ∧ (t.block.status = 1#3 ∨ t.block.status = 3#3))

/-- R144: `dec n` on a frame that passes the length check but whose CRC differs from its trailer, low byte
first and counted from the frame's end, reports CRC_MISMATCH, zeroes REGS and DEC_COUNT and changes nothing else. -/
def Obligations.DecCrcMismatch : Prop :=
  ∀ (s : State) (n : Half) (l : Nat), l = s.block.rxLen.toNat → l ≤ 256 → 3 + 2 * n.toNat ≤ l →
    (crc16 (s.block.rxbuf.toList.take (l - 2))).toNat ≠
      (s.block.rxbuf.toList.getD (l - 2) 0#8).toNat + 256 * (s.block.rxbuf.toList.getD (l - 1) 0#8).toNat →
    exec (.dec n) s = .next { s with block := { s.block with
      regs := Vector.replicate 126 0#16, decCount := 0#7, status := 3#3 } }

/-- R145: `dec n` on a frame that passes both checks: word k, high byte first, into REGS[k] for k < n, 0 into the
rest, DEC_COUNT = n, STATUS = OK, and nothing else changes. -/
def Obligations.DecExtractsWords : Prop :=
  ∀ (s : State) (n : Half) (l : Nat), l = s.block.rxLen.toNat → l ≤ 256 → 3 + 2 * n.toNat ≤ l →
    (crc16 (s.block.rxbuf.toList.take (l - 2))).toNat =
      (s.block.rxbuf.toList.getD (l - 2) 0#8).toNat + 256 * (s.block.rxbuf.toList.getD (l - 1) 0#8).toNat →
    ∃ t, exec (.dec n) s = .next t ∧
      t = { s with block := { s.block with
        regs := t.block.regs, decCount := t.block.decCount, status := 1#3 } } ∧
      t.block.decCount.toNat = n.toNat ∧
      (∀ k : Fin 126, k.val < n.toNat → t.block.regs[k].toNat =
        256 * (s.block.rxbuf.toList.getD (3 + 2 * k.val) 0#8).toNat +
          (s.block.rxbuf.toList.getD (4 + 2 * k.val) 0#8).toNat) ∧
      (∀ k : Fin 126, n.toNat ≤ k.val → t.block.regs[k] = 0#16)

/-- R172, R173, R174: the interpreter commands, their words, their results on every raw word, and that they write
nothing but INT_VALUE, INT_KIND and STATUS. The mask comes before the mapping: only bit 0 decides home or away. -/
def Obligations.InterpreterResults : Prop :=
  ∀ (s : State) (r : Half),
    decode (r.setWidth 32 <<< 16 ||| 0x00000030#32) = .command (.intPass r) ∧
    decode (r.setWidth 32 <<< 16 ||| 0x00000130#32) = .command (.intMask12 r) ∧
    decode (r.setWidth 32 <<< 16 ||| 0x00000230#32) = .command (.intBool1 r) ∧
    exec (.intPass r) s = .next { s with block := { s.block with intValue := r, intKind := 0#1, status := 1#3 } } ∧
    exec (.intMask12 r) s = .next { s with block := { s.block with
      intValue := BitVec.ofNat 16 (r.toNat % 4096), intKind := 0#1, status := 1#3 } } ∧
    exec (.intBool1 r) s = .next { s with block := { s.block with
      intValue := BitVec.ofNat 16 (r.toNat % 2), intKind := 1#1, status := 1#3 } }

/-- The spec derives (R61): the frame of every command: a port index outside its footprint reads as before, and the
reset input, the host's pending actions and the words already read stay. -/
def Obligations.CommandsWriteOnlyTheirFootprint : Prop :=
  ∀ (i : Instr) (s t : State), exec i s = .next t →
    (∀ idx : Index, writesSlot i (slotOf idx) = false → portRead idx t.block = portRead idx s.block) ∧
    t.resetAsserted = s.resetAsserted ∧ t.inbox = s.inbox ∧ t.replies = s.replies

/-- From R201 and R202: a command reports OK, TOO_SHORT or CRC_MISMATCH, and the last two come from `dec` alone. -/
def Obligations.CommandOutcomeCodes : Prop :=
  ∀ (i : Instr) (s t : State), exec i s = .next t →
    t.block.status = 1#3 ∨ ((t.block.status = 2#3 ∨ t.block.status = 3#3) ∧ ∃ n, i = .dec n)

/-! Laws of the CRC. -/

/-- The spec derives (R107): after each iteration bit 15 equals 1 exactly when the XOR with 0xA001 was applied, that
is, when bit 0 was 1. -/
def Obligations.CrcTopBitTellsXor : Prop :=
  ∀ c : Half, (crcIter c).getLsbD 15 = c.getLsbD 0 ∧
    crcIter c = if c.getLsbD 0 then (c >>> 1) ^^^ 0xA001#16 else c >>> 1

/-- From 91_not_in_source.md N11 ("A table-driven model must be shown equal to rule R101"): the table-driven CRC, one
256-entry look-up a byte, equals the bitwise rule R101. -/
def Obligations.CrcStepByTable : Prop :=
  ∀ table : Byte → Half, (∀ x : Byte, table x = crcStep 0x0000#16 x) →
    ∀ (c : Half) (b : Byte), crcStep c b = (c >>> 8) ^^^ table (lo8 c ^^^ b)

/-- The spec derives (R151): `crcStep(c, b) = 0` exactly when `c = zext_16(b)`; and the step loses nothing: it is
injective in the accumulator and in the byte. -/
def Obligations.CrcStepIsInvertible : Prop :=
  (∀ (c : Half) (b : Byte), crcStep c b = 0#16 ↔ c = b.setWidth 16) ∧
  (∀ (c d : Half) (b : Byte), crcStep c b = crcStep d b → c = d) ∧
  (∀ (c : Half) (a b : Byte), crcStep c a = crcStep c b → a = b)

/-- The spec derives (R109): appending a sequence's CRC to it, low byte first, makes the CRC of the whole 0x0000. -/
def Obligations.CrcResidueIsZero : Prop := ∀ s : List Byte, crc16 (s ++ [lo8 (crc16 s), hi8 (crc16 s)]) = 0x0000#16

/-- The spec derives (R106): after `crc.init`, or from reset, CRC_ACC is the CRC of the bytes streamed by `crc.byte`,
whatever other commands, illegal words and port accesses are interleaved. -/
def Obligations.CrcStreamEqualsCrc : Prop :=
  (∀ (s : State) (actions rest : List HostAction), s.resetAsserted = false →
    (∀ a ∈ actions, keepsStream a = true) → s.inbox = issue .crcInit :: (actions ++ rest) →
    ∃ t, Sys2Proof.core.run (actions.length + 1) s = .next t ∧ State.inbox t = rest ∧
      (State.block t).crcAcc = crc16 (streamedBytes actions)) ∧
  (∀ (s : State) (actions rest : List HostAction), s.resetAsserted = false → s.block = Block.reset →
    (∀ a ∈ actions, keepsStream a = true) → s.inbox = actions ++ rest →
    ∃ t, Sys2Proof.core.run actions.length s = .next t ∧ State.inbox t = rest ∧
      (State.block t).crcAcc = crc16 (streamedBytes actions))

/-- Values of the CRC from 95_test_vectors.md V1.1, V1.2, V2.3 and V2.4. -/
def Obligations.CrcKnownValues : Prop :=
  crc16 [] = 0xFFFF#16 ∧
  crc16 [0x01#8, 0x03#8, 0x11#8, 0x01#8, 0x00#8, 0x01#8] = 0xF6D0#16 ∧
  crc16 [0x01#8, 0x03#8, 0x02#8, 0x00#8, 0x2A#8] = 0x9B39#16 ∧
  crc16 [0x31#8, 0x32#8, 0x33#8, 0x34#8, 0x35#8, 0x36#8, 0x37#8, 0x38#8, 0x39#8] = 0x4B37#16 ∧
  crc16 [0xAA#8, 0x55#8] = 0x2FBF#16 ∧ crc16 [0x01#8, 0x83#8, 0x02#8] = 0xF1C0#16

/-! Frames. -/

/-- The spec derives (R125): the frame `enc` builds passes the CRC comparison the decoder applies, and so is accepted
as a response for every count its length allows. -/
def Obligations.RequestFramePassesCrcCheck : Prop :=
  ∀ (a f : Byte) (s n : Half),
    le16 (buildRequest a f s n)[6] (buildRequest a f s n)[7] = crc16 ((buildRequest a f s n).toList.take 6) ∧
    ∀ m : Half, 3 + 2 * m.toNat ≤ 8 → ∃ ws, decodeResponse (buildRequest a f s n).toList m = .ok ws

/-- The spec derives (R155): the well-formed response to a one-register request, decoded with `dec 1`, gives back the
injected word. -/
def Obligations.OneRegisterRoundTrip : Prop :=
  ∀ (s : State) (a : Byte) (w : Half),
    s.block.holds (let c := crc16 [a, 0x03#8, 0x02#8, hi8 w, lo8 w]
      [a, 0x03#8, 0x02#8, hi8 w, lo8 w, lo8 c, hi8 c]) →
    ∃ t, exec (.dec 1#16) s = .next t ∧ t.block.status = 1#3 ∧ t.block.decCount = 1#7 ∧ t.block.regs[0] = w

/-- From R83, R84, R85 and what the spec derives in R151: any well-formed response, whatever its three header bytes,
decoded with any count up to its own, gives back its first n words in order and zeros after them. -/
def Obligations.ResponseRoundTrip : Prop :=
  ∀ (s : State) (h0 h1 h2 : Byte) (ws : List Half) (n : Half), n.toNat ≤ ws.length →
    s.block.holds (wellFormedResponse h0 h1 h2 ws) →
    ∃ t, exec (.dec n) s = .next t ∧ t.block.status = 1#3 ∧ t.block.decCount.toNat = n.toNat ∧
      (∀ k : Fin 126, k.val < n.toNat → ws[k.val]? = some t.block.regs[k]) ∧
      (∀ k : Fin 126, n.toNat ≤ k.val → t.block.regs[k] = 0#16)

/-- The spec derives (R148): a successful `dec n` has n at most 126; for n of at least 127 every `dec n` reports
TOO_SHORT, whatever RXBUF holds. -/
def Obligations.DecCapacity : Prop :=
  ∀ (s t : State) (n : Half), s.block.rxLen.toNat ≤ 256 → exec (.dec n) s = .next t →
    (t.block.status = 1#3 → 3 + 2 * n.toNat ≤ s.block.rxLen.toNat ∧ n.toNat ≤ 126) ∧
    (127 ≤ n.toNat → t.block.status = 2#3) ∧ t.block.decCount.toNat ≤ 126

/-- The spec derives (R153): with RX_LEN of at most 2 every `dec n` reports TOO_SHORT. -/
def Obligations.TinyFramesAreTooShort : Prop :=
  ∀ (s : State) (n : Half), s.block.rxLen.toNat ≤ 2 →
    ∃ t, exec (.dec n) s = .next t ∧ t.block.status = 2#3 ∧ t.block.decCount = 0#7

/-- The spec derives (R231, R61): `dec` reads RX_LEN and RXBUF[0..RX_LEN) and nothing else: two states that agree
there get the same STATUS, DEC_COUNT and REGS, whatever else they hold. -/
def Obligations.DecIgnoresAllButTheFrame : Prop :=
  ∀ (s s' : State) (n : Half), s.block.rxLen = s'.block.rxLen →
    (∀ i : Fin 256, i.val < s.block.rxLen.toNat → s.block.rxbuf[i] = s'.block.rxbuf[i]) →
    ∃ t t', exec (.dec n) s = .next t ∧ exec (.dec n) s' = .next t' ∧ t.block.status = t'.block.status ∧
      t.block.decCount = t'.block.decCount ∧ t.block.regs = t'.block.regs

/-- The spec derives (R156, of well-formed responses): in any frame `dec n` accepts, well-formed responses among them,
flipping any single bit of any byte, header and trailer included, makes `dec n` report CRC_MISMATCH. -/
def Obligations.SingleBitFlipIsDetected : Prop :=
  ∀ (s t : State) (n : Half) (i : Fin 256) (k : Fin 8), s.block.rxLen.toNat ≤ 256 → i.val < s.block.rxLen.toNat →
    exec (.dec n) s = .next t → t.block.status = 1#3 →
    ∃ u, exec (.dec n) { s with block := { s.block with
        rxbuf := s.block.rxbuf.set i (s.block.rxbuf[i] ^^^ (1#8 <<< k.val)) } } = .next u ∧
      u.block.status = 3#3 ∧ u.block.decCount = 0#7 ∧ u.block.regs = Vector.replicate 126 0#16

/-- The spec derives (R151): a well-formed response followed by one byte 0x00 is accepted with the same words. -/
def Obligations.TrailingZeroAccepted : Prop :=
  ∀ (h0 h1 h2 : Byte) (ws : List Half) (n : Half), n.toNat ≤ ws.length →
    decodeResponse (wellFormedResponse h0 h1 h2 ws) n = .ok (ws.take n.toNat) ∧
    decodeResponse (wellFormedResponse h0 h1 h2 ws ++ [0x00#8]) n = .ok (ws.take n.toNat)

/-- The spec derives (R150): an accepted frame of 3 + 2n bytes has its trailer, taken high byte first, as last word;
in one of 4 + 2n bytes the last word's low byte is the trailer's low byte. -/
def Obligations.ShortFramesReadTrailerAsData : Prop :=
  ∀ (s : List Byte) (n : Half) (ws : List Half), 1 ≤ n.toNat → decodeResponse s n = .ok ws →
    (s.length = 3 + 2 * n.toNat →
      ws.getLast? = some (be16 (lo8 (crc16 (s.take (1 + 2 * n.toNat)))) (hi8 (crc16 (s.take (1 + 2 * n.toNat)))))) ∧
    (s.length = 4 + 2 * n.toNat →
      ws.getLast?.map lo8 = some (lo8 (crc16 (s.take (2 + 2 * n.toNat)))))

/-- R85: a response is validated by length and CRC alone. Two frames of one length that agree from byte 3 on, whatever
their address, function code and byte count, get the same answer once their CRC comparisons come out alike. -/
def Obligations.HeaderBytesAreNotChecked : Prop :=
  ∀ (s t : List Byte) (n : Half), s.length = t.length → s.drop 3 = t.drop 3 →
    (crc16 (crcPart s) = crcTrailer s ↔ crc16 (crcPart t) = crcTrailer t) →
    decodeResponse s n = decodeResponse t n

/-- The spec derives (R154): `dec` writes neither RXBUF nor RX_LEN, so the same frame can be decoded again with
another count, with the result that count gives. -/
def Obligations.DecCanBeRepeated : Prop :=
  ∀ (s t : State) (n m : Half), exec (.dec n) s = .next t →
    t.block.rxbuf = s.block.rxbuf ∧ t.block.rxLen = s.block.rxLen ∧ exec (.dec m) t = exec (.dec m) s

/-! The invariant. -/

/-- Every step keeps the invariant of `State.Inv` (R24, R30 to R32, R34, R35, R37, R146, R220). -/
def Obligations.StepKeepsInvariant : Prop := ∀ s t : State, s.Inv → step s = .next t → t.Inv

/-- The invariant holds right after reset. -/
def Obligations.ResetMeetsInvariant : Prop := State.reset.Inv

/-! The host agent. -/

/-- The agent's actions are steps of the machine: performing them is running the machine on them. (The agent is a
function beside the step: log entry 9.) -/
def Obligations.AgentActionsAreSteps : Prop :=
  ∀ (actions rest : List HostAction) (s : State),
    ∃ t, performAll actions s = .next t ∧
      Sys2Proof.core.run actions.length { s with inbox := actions ++ rest } = .next { t with inbox := rest }

/-- From R237, R181 and R241: a reading whose response is well formed, with at least the words it asks for, sends its
request frame and is recorded with the value its mode gives the response's first word, from any state of the block. All
register counts are covered: a response of more than 125 words is longer than the read buffer (R86). The agent and its
records are the model's functions (log entries 9, 11); that REGS[0] alone is interpreted, so that a reading of no
register, which no conforming host makes (R224), is recorded with the value of 0, is log entry 9's too. -/
def Obligations.ReadingEndToEnd : Prop :=
  ∀ (s : State) (r : ReadingSpec) (h0 h1 h2 : Byte) (w : Half) (ws : List Half) (time : Nat), s.resetAsserted = false →
    r.registerCount.toNat ≤ (w :: ws).length → (w :: ws).length ≤ 125 →
    ∃ p, pollReading r ⟨.bytes (wellFormedResponse h0 h1 h2 (w :: ws)), time⟩ s = .next p ∧
      p.sent = (buildRequest s.block.reqAddr s.block.reqFc r.startAddress r.registerCount).toList ∧
      p.record = .output r.name (readingValue r.mode (if r.registerCount = 0#16 then 0#16 else w)) time

/-- From R240: a failed reading is recorded with the kind of its failure: IOError from the transport, TooShort for a
response of fewer than 3 + 2n bytes, CRCMismatch for one whose CRC does not match. (The agent is the model's function,
log entry 9.) -/
def Obligations.FailedReadingRecords : Prop :=
  ∀ (s : State) (r : ReadingSpec) (time : Nat), s.resetAsserted = false →
    (∃ p, pollReading r ⟨.ioError, time⟩ s = .next p ∧ p.record = .diagnostic r.name .ioError) ∧
    (∀ bytes : List Byte, bytes.length ≤ 256 → bytes.length < 3 + 2 * r.registerCount.toNat →
      ∃ p, pollReading r ⟨.bytes bytes, time⟩ s = .next p ∧ p.record = .diagnostic r.name .tooShort) ∧
    (∀ bytes : List Byte, bytes.length ≤ 256 → 3 + 2 * r.registerCount.toNat ≤ bytes.length →
      crc16 (crcPart bytes) ≠ crcTrailer bytes →
      ∃ p, pollReading r ⟨.bytes bytes, time⟩ s = .next p ∧ p.record = .diagnostic r.name .crcMismatch)

/-- From R238: one reading's failure never affects its siblings: in a cycle from any state, each record is the one
that reading and its exchange give alone, from reset. (The agent is the model's function: log entry 9.) -/
def Obligations.ReadingsAreIsolated : Prop :=
  ∀ (s : State) (readings : List (ReadingSpec × Exchange)), s.resetAsserted = false →
    ∃ c, pollCycle readings s = .next c ∧ c.records.length = readings.length ∧
      ∀ (k : Nat) (r : ReadingSpec) (x : Exchange), readings[k]? = some (r, x) →
        ∃ p, pollReading r x State.reset = .next p ∧ c.records[k]? = some p.record

/-- From R180, R224, R237 and R241: a cycle over the default reading table, after boot with a slave address, on a line
that answers each request with a well-formed response, sends the three requests in order and records the three values.
The table's readings meet what the host owes (R224). (The agent is the model's function, log entry 9; the table's
addresses are unaudited, log entry 10; the records' form is log entry 11's.) -/
def Obligations.PollCycleOverReadingTable : Prop :=
  (∀ r ∈ readingTable, r.conforms = true) ∧
  ∀ (s : State) (slave : Byte) (w1 w2 w3 : Half) (t1 t2 t3 : Nat), s.resetAsserted = false → s.block.reqFc = 0x03#8 →
    ∃ s1 c, performAll (bootActions slave) s = .next s1 ∧
      pollCycle (readingTable.zip [⟨.bytes (wellFormedResponse slave 0x03#8 0x02#8 [w1]), t1⟩,
        ⟨.bytes (wellFormedResponse slave 0x03#8 0x02#8 [w2]), t2⟩,
        ⟨.bytes (wellFormedResponse slave 0x03#8 0x02#8 [w3]), t3⟩]) s1 = .next c ∧
      c.sent = [(buildRequest slave 0x03#8 0x1101#16 1#16).toList, (buildRequest slave 0x03#8 0x110B#16 1#16).toList,
        (buildRequest slave 0x03#8 0x1201#16 1#16).toList] ∧
      c.records = [.output .fanSpeed (.integer w1) t1,
        .output .multisensorTemp (.integer (BitVec.ofNat 16 (w2.toNat % 4096))) t2,
        .output .state (if w3.getLsbD 0 then .away else .home) t3]
end

