-- ==== Sys2Proof/Laws/State.lean ====
section
/-! SUPPORT. One lemma per field per update of the block, so that no proof unfolds a record update. -/

namespace Sys2Proof.Machine

/-! `Block.putStatus`. -/

@[simp] theorem Block.putStatus_status (c : StatusCode) (b : Block) :
    (Block.putStatus c b).status = c.code := rfl
@[simp] theorem Block.putStatus_crcAcc (c : StatusCode) (b : Block) :
    (Block.putStatus c b).crcAcc = b.crcAcc := rfl
@[simp] theorem Block.putStatus_reqAddr (c : StatusCode) (b : Block) :
    (Block.putStatus c b).reqAddr = b.reqAddr := rfl
@[simp] theorem Block.putStatus_reqFc (c : StatusCode) (b : Block) :
    (Block.putStatus c b).reqFc = b.reqFc := rfl
@[simp] theorem Block.putStatus_reqStart (c : StatusCode) (b : Block) :
    (Block.putStatus c b).reqStart = b.reqStart := rfl
@[simp] theorem Block.putStatus_reqCount (c : StatusCode) (b : Block) :
    (Block.putStatus c b).reqCount = b.reqCount := rfl
@[simp] theorem Block.putStatus_txLen (c : StatusCode) (b : Block) :
    (Block.putStatus c b).txLen = b.txLen := rfl
@[simp] theorem Block.putStatus_rxLen (c : StatusCode) (b : Block) :
    (Block.putStatus c b).rxLen = b.rxLen := rfl
@[simp] theorem Block.putStatus_decCount (c : StatusCode) (b : Block) :
    (Block.putStatus c b).decCount = b.decCount := rfl
@[simp] theorem Block.putStatus_intValue (c : StatusCode) (b : Block) :
    (Block.putStatus c b).intValue = b.intValue := rfl
@[simp] theorem Block.putStatus_intKind (c : StatusCode) (b : Block) :
    (Block.putStatus c b).intKind = b.intKind := rfl
@[simp] theorem Block.putStatus_txbuf (c : StatusCode) (b : Block) :
    (Block.putStatus c b).txbuf = b.txbuf := rfl
@[simp] theorem Block.putStatus_regs (c : StatusCode) (b : Block) :
    (Block.putStatus c b).regs = b.regs := rfl
@[simp] theorem Block.putStatus_rxbuf (c : StatusCode) (b : Block) :
    (Block.putStatus c b).rxbuf = b.rxbuf := rfl

/-! `Block.putCrcAcc`. -/

@[simp] theorem Block.putCrcAcc_status (v : Half) (b : Block) :
    (Block.putCrcAcc v b).status = b.status := rfl
@[simp] theorem Block.putCrcAcc_crcAcc (v : Half) (b : Block) :
    (Block.putCrcAcc v b).crcAcc = v := rfl
@[simp] theorem Block.putCrcAcc_reqAddr (v : Half) (b : Block) :
    (Block.putCrcAcc v b).reqAddr = b.reqAddr := rfl
@[simp] theorem Block.putCrcAcc_reqFc (v : Half) (b : Block) :
    (Block.putCrcAcc v b).reqFc = b.reqFc := rfl
@[simp] theorem Block.putCrcAcc_reqStart (v : Half) (b : Block) :
    (Block.putCrcAcc v b).reqStart = b.reqStart := rfl
@[simp] theorem Block.putCrcAcc_reqCount (v : Half) (b : Block) :
    (Block.putCrcAcc v b).reqCount = b.reqCount := rfl
@[simp] theorem Block.putCrcAcc_txLen (v : Half) (b : Block) :
    (Block.putCrcAcc v b).txLen = b.txLen := rfl
@[simp] theorem Block.putCrcAcc_rxLen (v : Half) (b : Block) :
    (Block.putCrcAcc v b).rxLen = b.rxLen := rfl
@[simp] theorem Block.putCrcAcc_decCount (v : Half) (b : Block) :
    (Block.putCrcAcc v b).decCount = b.decCount := rfl
@[simp] theorem Block.putCrcAcc_intValue (v : Half) (b : Block) :
    (Block.putCrcAcc v b).intValue = b.intValue := rfl
@[simp] theorem Block.putCrcAcc_intKind (v : Half) (b : Block) :
    (Block.putCrcAcc v b).intKind = b.intKind := rfl
@[simp] theorem Block.putCrcAcc_txbuf (v : Half) (b : Block) :
    (Block.putCrcAcc v b).txbuf = b.txbuf := rfl
@[simp] theorem Block.putCrcAcc_regs (v : Half) (b : Block) :
    (Block.putCrcAcc v b).regs = b.regs := rfl
@[simp] theorem Block.putCrcAcc_rxbuf (v : Half) (b : Block) :
    (Block.putCrcAcc v b).rxbuf = b.rxbuf := rfl

/-! `Block.putReqAddr`. -/

@[simp] theorem Block.putReqAddr_status (v : Byte) (b : Block) :
    (Block.putReqAddr v b).status = b.status := rfl
@[simp] theorem Block.putReqAddr_crcAcc (v : Byte) (b : Block) :
    (Block.putReqAddr v b).crcAcc = b.crcAcc := rfl
@[simp] theorem Block.putReqAddr_reqAddr (v : Byte) (b : Block) :
    (Block.putReqAddr v b).reqAddr = v := rfl
@[simp] theorem Block.putReqAddr_reqFc (v : Byte) (b : Block) :
    (Block.putReqAddr v b).reqFc = b.reqFc := rfl
@[simp] theorem Block.putReqAddr_reqStart (v : Byte) (b : Block) :
    (Block.putReqAddr v b).reqStart = b.reqStart := rfl
@[simp] theorem Block.putReqAddr_reqCount (v : Byte) (b : Block) :
    (Block.putReqAddr v b).reqCount = b.reqCount := rfl
@[simp] theorem Block.putReqAddr_txLen (v : Byte) (b : Block) :
    (Block.putReqAddr v b).txLen = b.txLen := rfl
@[simp] theorem Block.putReqAddr_rxLen (v : Byte) (b : Block) :
    (Block.putReqAddr v b).rxLen = b.rxLen := rfl
@[simp] theorem Block.putReqAddr_decCount (v : Byte) (b : Block) :
    (Block.putReqAddr v b).decCount = b.decCount := rfl
@[simp] theorem Block.putReqAddr_intValue (v : Byte) (b : Block) :
    (Block.putReqAddr v b).intValue = b.intValue := rfl
@[simp] theorem Block.putReqAddr_intKind (v : Byte) (b : Block) :
    (Block.putReqAddr v b).intKind = b.intKind := rfl
@[simp] theorem Block.putReqAddr_txbuf (v : Byte) (b : Block) :
    (Block.putReqAddr v b).txbuf = b.txbuf := rfl
@[simp] theorem Block.putReqAddr_regs (v : Byte) (b : Block) :
    (Block.putReqAddr v b).regs = b.regs := rfl
@[simp] theorem Block.putReqAddr_rxbuf (v : Byte) (b : Block) :
    (Block.putReqAddr v b).rxbuf = b.rxbuf := rfl

/-! `Block.putReqFc`. -/

@[simp] theorem Block.putReqFc_status (v : Byte) (b : Block) :
    (Block.putReqFc v b).status = b.status := rfl
@[simp] theorem Block.putReqFc_crcAcc (v : Byte) (b : Block) :
    (Block.putReqFc v b).crcAcc = b.crcAcc := rfl
@[simp] theorem Block.putReqFc_reqAddr (v : Byte) (b : Block) :
    (Block.putReqFc v b).reqAddr = b.reqAddr := rfl
@[simp] theorem Block.putReqFc_reqFc (v : Byte) (b : Block) :
    (Block.putReqFc v b).reqFc = v := rfl
@[simp] theorem Block.putReqFc_reqStart (v : Byte) (b : Block) :
    (Block.putReqFc v b).reqStart = b.reqStart := rfl
@[simp] theorem Block.putReqFc_reqCount (v : Byte) (b : Block) :
    (Block.putReqFc v b).reqCount = b.reqCount := rfl
@[simp] theorem Block.putReqFc_txLen (v : Byte) (b : Block) :
    (Block.putReqFc v b).txLen = b.txLen := rfl
@[simp] theorem Block.putReqFc_rxLen (v : Byte) (b : Block) :
    (Block.putReqFc v b).rxLen = b.rxLen := rfl
@[simp] theorem Block.putReqFc_decCount (v : Byte) (b : Block) :
    (Block.putReqFc v b).decCount = b.decCount := rfl
@[simp] theorem Block.putReqFc_intValue (v : Byte) (b : Block) :
    (Block.putReqFc v b).intValue = b.intValue := rfl
@[simp] theorem Block.putReqFc_intKind (v : Byte) (b : Block) :
    (Block.putReqFc v b).intKind = b.intKind := rfl
@[simp] theorem Block.putReqFc_txbuf (v : Byte) (b : Block) :
    (Block.putReqFc v b).txbuf = b.txbuf := rfl
@[simp] theorem Block.putReqFc_regs (v : Byte) (b : Block) :
    (Block.putReqFc v b).regs = b.regs := rfl
@[simp] theorem Block.putReqFc_rxbuf (v : Byte) (b : Block) :
    (Block.putReqFc v b).rxbuf = b.rxbuf := rfl

/-! `Block.putReqStart`. -/

@[simp] theorem Block.putReqStart_status (v : Half) (b : Block) :
    (Block.putReqStart v b).status = b.status := rfl
@[simp] theorem Block.putReqStart_crcAcc (v : Half) (b : Block) :
    (Block.putReqStart v b).crcAcc = b.crcAcc := rfl
@[simp] theorem Block.putReqStart_reqAddr (v : Half) (b : Block) :
    (Block.putReqStart v b).reqAddr = b.reqAddr := rfl
@[simp] theorem Block.putReqStart_reqFc (v : Half) (b : Block) :
    (Block.putReqStart v b).reqFc = b.reqFc := rfl
@[simp] theorem Block.putReqStart_reqStart (v : Half) (b : Block) :
    (Block.putReqStart v b).reqStart = v := rfl
@[simp] theorem Block.putReqStart_reqCount (v : Half) (b : Block) :
    (Block.putReqStart v b).reqCount = b.reqCount := rfl
@[simp] theorem Block.putReqStart_txLen (v : Half) (b : Block) :
    (Block.putReqStart v b).txLen = b.txLen := rfl
@[simp] theorem Block.putReqStart_rxLen (v : Half) (b : Block) :
    (Block.putReqStart v b).rxLen = b.rxLen := rfl
@[simp] theorem Block.putReqStart_decCount (v : Half) (b : Block) :
    (Block.putReqStart v b).decCount = b.decCount := rfl
@[simp] theorem Block.putReqStart_intValue (v : Half) (b : Block) :
    (Block.putReqStart v b).intValue = b.intValue := rfl
@[simp] theorem Block.putReqStart_intKind (v : Half) (b : Block) :
    (Block.putReqStart v b).intKind = b.intKind := rfl
@[simp] theorem Block.putReqStart_txbuf (v : Half) (b : Block) :
    (Block.putReqStart v b).txbuf = b.txbuf := rfl
@[simp] theorem Block.putReqStart_regs (v : Half) (b : Block) :
    (Block.putReqStart v b).regs = b.regs := rfl
@[simp] theorem Block.putReqStart_rxbuf (v : Half) (b : Block) :
    (Block.putReqStart v b).rxbuf = b.rxbuf := rfl

/-! `Block.putReqCount`. -/

@[simp] theorem Block.putReqCount_status (v : Half) (b : Block) :
    (Block.putReqCount v b).status = b.status := rfl
@[simp] theorem Block.putReqCount_crcAcc (v : Half) (b : Block) :
    (Block.putReqCount v b).crcAcc = b.crcAcc := rfl
@[simp] theorem Block.putReqCount_reqAddr (v : Half) (b : Block) :
    (Block.putReqCount v b).reqAddr = b.reqAddr := rfl
@[simp] theorem Block.putReqCount_reqFc (v : Half) (b : Block) :
    (Block.putReqCount v b).reqFc = b.reqFc := rfl
@[simp] theorem Block.putReqCount_reqStart (v : Half) (b : Block) :
    (Block.putReqCount v b).reqStart = b.reqStart := rfl
@[simp] theorem Block.putReqCount_reqCount (v : Half) (b : Block) :
    (Block.putReqCount v b).reqCount = v := rfl
@[simp] theorem Block.putReqCount_txLen (v : Half) (b : Block) :
    (Block.putReqCount v b).txLen = b.txLen := rfl
@[simp] theorem Block.putReqCount_rxLen (v : Half) (b : Block) :
    (Block.putReqCount v b).rxLen = b.rxLen := rfl
@[simp] theorem Block.putReqCount_decCount (v : Half) (b : Block) :
    (Block.putReqCount v b).decCount = b.decCount := rfl
@[simp] theorem Block.putReqCount_intValue (v : Half) (b : Block) :
    (Block.putReqCount v b).intValue = b.intValue := rfl
@[simp] theorem Block.putReqCount_intKind (v : Half) (b : Block) :
    (Block.putReqCount v b).intKind = b.intKind := rfl
@[simp] theorem Block.putReqCount_txbuf (v : Half) (b : Block) :
    (Block.putReqCount v b).txbuf = b.txbuf := rfl
@[simp] theorem Block.putReqCount_regs (v : Half) (b : Block) :
    (Block.putReqCount v b).regs = b.regs := rfl
@[simp] theorem Block.putReqCount_rxbuf (v : Half) (b : Block) :
    (Block.putReqCount v b).rxbuf = b.rxbuf := rfl

/-! `Block.putRxByte`. -/

@[simp] theorem Block.putRxByte_status (i : Fin 256) (v : Byte) (b : Block) :
    (Block.putRxByte i v b).status = b.status := rfl
@[simp] theorem Block.putRxByte_crcAcc (i : Fin 256) (v : Byte) (b : Block) :
    (Block.putRxByte i v b).crcAcc = b.crcAcc := rfl
@[simp] theorem Block.putRxByte_reqAddr (i : Fin 256) (v : Byte) (b : Block) :
    (Block.putRxByte i v b).reqAddr = b.reqAddr := rfl
@[simp] theorem Block.putRxByte_reqFc (i : Fin 256) (v : Byte) (b : Block) :
    (Block.putRxByte i v b).reqFc = b.reqFc := rfl
@[simp] theorem Block.putRxByte_reqStart (i : Fin 256) (v : Byte) (b : Block) :
    (Block.putRxByte i v b).reqStart = b.reqStart := rfl
@[simp] theorem Block.putRxByte_reqCount (i : Fin 256) (v : Byte) (b : Block) :
    (Block.putRxByte i v b).reqCount = b.reqCount := rfl
@[simp] theorem Block.putRxByte_txLen (i : Fin 256) (v : Byte) (b : Block) :
    (Block.putRxByte i v b).txLen = b.txLen := rfl
@[simp] theorem Block.putRxByte_rxLen (i : Fin 256) (v : Byte) (b : Block) :
    (Block.putRxByte i v b).rxLen = b.rxLen := rfl
@[simp] theorem Block.putRxByte_decCount (i : Fin 256) (v : Byte) (b : Block) :
    (Block.putRxByte i v b).decCount = b.decCount := rfl
@[simp] theorem Block.putRxByte_intValue (i : Fin 256) (v : Byte) (b : Block) :
    (Block.putRxByte i v b).intValue = b.intValue := rfl
@[simp] theorem Block.putRxByte_intKind (i : Fin 256) (v : Byte) (b : Block) :
    (Block.putRxByte i v b).intKind = b.intKind := rfl
@[simp] theorem Block.putRxByte_txbuf (i : Fin 256) (v : Byte) (b : Block) :
    (Block.putRxByte i v b).txbuf = b.txbuf := rfl
@[simp] theorem Block.putRxByte_regs (i : Fin 256) (v : Byte) (b : Block) :
    (Block.putRxByte i v b).regs = b.regs := rfl
@[simp] theorem Block.putRxByte_rxbuf (i : Fin 256) (v : Byte) (b : Block) :
    (Block.putRxByte i v b).rxbuf = b.rxbuf.set i v := rfl

/-! `Block.putTxFrame`. -/

@[simp] theorem Block.putTxFrame_status (t : Vector Byte 8) (b : Block) :
    (Block.putTxFrame t b).status = b.status := rfl
@[simp] theorem Block.putTxFrame_crcAcc (t : Vector Byte 8) (b : Block) :
    (Block.putTxFrame t b).crcAcc = b.crcAcc := rfl
@[simp] theorem Block.putTxFrame_reqAddr (t : Vector Byte 8) (b : Block) :
    (Block.putTxFrame t b).reqAddr = b.reqAddr := rfl
@[simp] theorem Block.putTxFrame_reqFc (t : Vector Byte 8) (b : Block) :
    (Block.putTxFrame t b).reqFc = b.reqFc := rfl
@[simp] theorem Block.putTxFrame_reqStart (t : Vector Byte 8) (b : Block) :
    (Block.putTxFrame t b).reqStart = b.reqStart := rfl
@[simp] theorem Block.putTxFrame_reqCount (t : Vector Byte 8) (b : Block) :
    (Block.putTxFrame t b).reqCount = b.reqCount := rfl
@[simp] theorem Block.putTxFrame_txLen (t : Vector Byte 8) (b : Block) :
    (Block.putTxFrame t b).txLen = Config.requestLen := rfl
@[simp] theorem Block.putTxFrame_rxLen (t : Vector Byte 8) (b : Block) :
    (Block.putTxFrame t b).rxLen = b.rxLen := rfl
@[simp] theorem Block.putTxFrame_decCount (t : Vector Byte 8) (b : Block) :
    (Block.putTxFrame t b).decCount = b.decCount := rfl
@[simp] theorem Block.putTxFrame_intValue (t : Vector Byte 8) (b : Block) :
    (Block.putTxFrame t b).intValue = b.intValue := rfl
@[simp] theorem Block.putTxFrame_intKind (t : Vector Byte 8) (b : Block) :
    (Block.putTxFrame t b).intKind = b.intKind := rfl
@[simp] theorem Block.putTxFrame_txbuf (t : Vector Byte 8) (b : Block) :
    (Block.putTxFrame t b).txbuf = t := rfl
@[simp] theorem Block.putTxFrame_regs (t : Vector Byte 8) (b : Block) :
    (Block.putTxFrame t b).regs = b.regs := rfl
@[simp] theorem Block.putTxFrame_rxbuf (t : Vector Byte 8) (b : Block) :
    (Block.putTxFrame t b).rxbuf = b.rxbuf := rfl

/-! `Block.clearDecoded`. -/

@[simp] theorem Block.clearDecoded_status (b : Block) :
    (Block.clearDecoded b).status = b.status := rfl
@[simp] theorem Block.clearDecoded_crcAcc (b : Block) :
    (Block.clearDecoded b).crcAcc = b.crcAcc := rfl
@[simp] theorem Block.clearDecoded_reqAddr (b : Block) :
    (Block.clearDecoded b).reqAddr = b.reqAddr := rfl
@[simp] theorem Block.clearDecoded_reqFc (b : Block) :
    (Block.clearDecoded b).reqFc = b.reqFc := rfl
@[simp] theorem Block.clearDecoded_reqStart (b : Block) :
    (Block.clearDecoded b).reqStart = b.reqStart := rfl
@[simp] theorem Block.clearDecoded_reqCount (b : Block) :
    (Block.clearDecoded b).reqCount = b.reqCount := rfl
@[simp] theorem Block.clearDecoded_txLen (b : Block) :
    (Block.clearDecoded b).txLen = b.txLen := rfl
@[simp] theorem Block.clearDecoded_rxLen (b : Block) :
    (Block.clearDecoded b).rxLen = b.rxLen := rfl
@[simp] theorem Block.clearDecoded_decCount (b : Block) :
    (Block.clearDecoded b).decCount = 0#7 := rfl
@[simp] theorem Block.clearDecoded_intValue (b : Block) :
    (Block.clearDecoded b).intValue = b.intValue := rfl
@[simp] theorem Block.clearDecoded_intKind (b : Block) :
    (Block.clearDecoded b).intKind = b.intKind := rfl
@[simp] theorem Block.clearDecoded_txbuf (b : Block) :
    (Block.clearDecoded b).txbuf = b.txbuf := rfl
@[simp] theorem Block.clearDecoded_regs (b : Block) :
    (Block.clearDecoded b).regs = Vector.replicate 126 0#16 := rfl
@[simp] theorem Block.clearDecoded_rxbuf (b : Block) :
    (Block.clearDecoded b).rxbuf = b.rxbuf := rfl

/-! `Block.putDecoded`. -/

@[simp] theorem Block.putDecoded_status (ws : List Half) (n : Half) (b : Block) :
    (Block.putDecoded ws n b).status = b.status := rfl
@[simp] theorem Block.putDecoded_crcAcc (ws : List Half) (n : Half) (b : Block) :
    (Block.putDecoded ws n b).crcAcc = b.crcAcc := rfl
@[simp] theorem Block.putDecoded_reqAddr (ws : List Half) (n : Half) (b : Block) :
    (Block.putDecoded ws n b).reqAddr = b.reqAddr := rfl
@[simp] theorem Block.putDecoded_reqFc (ws : List Half) (n : Half) (b : Block) :
    (Block.putDecoded ws n b).reqFc = b.reqFc := rfl
@[simp] theorem Block.putDecoded_reqStart (ws : List Half) (n : Half) (b : Block) :
    (Block.putDecoded ws n b).reqStart = b.reqStart := rfl
@[simp] theorem Block.putDecoded_reqCount (ws : List Half) (n : Half) (b : Block) :
    (Block.putDecoded ws n b).reqCount = b.reqCount := rfl
@[simp] theorem Block.putDecoded_txLen (ws : List Half) (n : Half) (b : Block) :
    (Block.putDecoded ws n b).txLen = b.txLen := rfl
@[simp] theorem Block.putDecoded_rxLen (ws : List Half) (n : Half) (b : Block) :
    (Block.putDecoded ws n b).rxLen = b.rxLen := rfl
@[simp] theorem Block.putDecoded_decCount (ws : List Half) (n : Half) (b : Block) :
    (Block.putDecoded ws n b).decCount = n.setWidth 7 := rfl
@[simp] theorem Block.putDecoded_intValue (ws : List Half) (n : Half) (b : Block) :
    (Block.putDecoded ws n b).intValue = b.intValue := rfl
@[simp] theorem Block.putDecoded_intKind (ws : List Half) (n : Half) (b : Block) :
    (Block.putDecoded ws n b).intKind = b.intKind := rfl
@[simp] theorem Block.putDecoded_txbuf (ws : List Half) (n : Half) (b : Block) :
    (Block.putDecoded ws n b).txbuf = b.txbuf := rfl
@[simp] theorem Block.putDecoded_regs (ws : List Half) (n : Half) (b : Block) :
    (Block.putDecoded ws n b).regs = storeWords ws 0 b.regs := rfl
@[simp] theorem Block.putDecoded_rxbuf (ws : List Half) (n : Half) (b : Block) :
    (Block.putDecoded ws n b).rxbuf = b.rxbuf := rfl

/-! `Block.putInterpreted`. -/

@[simp] theorem Block.putInterpreted_status (r : ValueKind × Half) (b : Block) :
    (Block.putInterpreted r b).status = b.status := rfl
@[simp] theorem Block.putInterpreted_crcAcc (r : ValueKind × Half) (b : Block) :
    (Block.putInterpreted r b).crcAcc = b.crcAcc := rfl
@[simp] theorem Block.putInterpreted_reqAddr (r : ValueKind × Half) (b : Block) :
    (Block.putInterpreted r b).reqAddr = b.reqAddr := rfl
@[simp] theorem Block.putInterpreted_reqFc (r : ValueKind × Half) (b : Block) :
    (Block.putInterpreted r b).reqFc = b.reqFc := rfl
@[simp] theorem Block.putInterpreted_reqStart (r : ValueKind × Half) (b : Block) :
    (Block.putInterpreted r b).reqStart = b.reqStart := rfl
@[simp] theorem Block.putInterpreted_reqCount (r : ValueKind × Half) (b : Block) :
    (Block.putInterpreted r b).reqCount = b.reqCount := rfl
@[simp] theorem Block.putInterpreted_txLen (r : ValueKind × Half) (b : Block) :
    (Block.putInterpreted r b).txLen = b.txLen := rfl
@[simp] theorem Block.putInterpreted_rxLen (r : ValueKind × Half) (b : Block) :
    (Block.putInterpreted r b).rxLen = b.rxLen := rfl
@[simp] theorem Block.putInterpreted_decCount (r : ValueKind × Half) (b : Block) :
    (Block.putInterpreted r b).decCount = b.decCount := rfl
@[simp] theorem Block.putInterpreted_intValue (r : ValueKind × Half) (b : Block) :
    (Block.putInterpreted r b).intValue = r.2 := rfl
@[simp] theorem Block.putInterpreted_intKind (r : ValueKind × Half) (b : Block) :
    (Block.putInterpreted r b).intKind = r.1.code := rfl
@[simp] theorem Block.putInterpreted_txbuf (r : ValueKind × Half) (b : Block) :
    (Block.putInterpreted r b).txbuf = b.txbuf := rfl
@[simp] theorem Block.putInterpreted_regs (r : ValueKind × Half) (b : Block) :
    (Block.putInterpreted r b).regs = b.regs := rfl
@[simp] theorem Block.putInterpreted_rxbuf (r : ValueKind × Half) (b : Block) :
    (Block.putInterpreted r b).rxbuf = b.rxbuf := rfl

/-! `Block.putRxLen` (R31). -/

theorem Block.putRxLen_of_legal {v : BitVec 9} (h : v.toNat ≤ 256) (b : Block) :
    Block.putRxLen v b = { b with rxLen := v } := if_pos h

theorem Block.putRxLen_of_illegal {v : BitVec 9} (h : ¬ v.toNat ≤ 256) (b : Block) : Block.putRxLen v b = b := if_neg h

@[simp] theorem Block.putRxLen_status (v : BitVec 9) (b : Block) : (Block.putRxLen v b).status = b.status := by
  unfold Block.putRxLen; split <;> rfl
@[simp] theorem Block.putRxLen_crcAcc (v : BitVec 9) (b : Block) : (Block.putRxLen v b).crcAcc = b.crcAcc := by
  unfold Block.putRxLen; split <;> rfl
@[simp] theorem Block.putRxLen_reqAddr (v : BitVec 9) (b : Block) : (Block.putRxLen v b).reqAddr = b.reqAddr := by
  unfold Block.putRxLen; split <;> rfl
@[simp] theorem Block.putRxLen_reqFc (v : BitVec 9) (b : Block) : (Block.putRxLen v b).reqFc = b.reqFc := by
  unfold Block.putRxLen; split <;> rfl
@[simp] theorem Block.putRxLen_reqStart (v : BitVec 9) (b : Block) : (Block.putRxLen v b).reqStart = b.reqStart := by
  unfold Block.putRxLen; split <;> rfl
@[simp] theorem Block.putRxLen_reqCount (v : BitVec 9) (b : Block) : (Block.putRxLen v b).reqCount = b.reqCount := by
  unfold Block.putRxLen; split <;> rfl
@[simp] theorem Block.putRxLen_txLen (v : BitVec 9) (b : Block) : (Block.putRxLen v b).txLen = b.txLen := by
  unfold Block.putRxLen; split <;> rfl
@[simp] theorem Block.putRxLen_decCount (v : BitVec 9) (b : Block) : (Block.putRxLen v b).decCount = b.decCount := by
  unfold Block.putRxLen; split <;> rfl
@[simp] theorem Block.putRxLen_intValue (v : BitVec 9) (b : Block) : (Block.putRxLen v b).intValue = b.intValue := by
  unfold Block.putRxLen; split <;> rfl
@[simp] theorem Block.putRxLen_intKind (v : BitVec 9) (b : Block) : (Block.putRxLen v b).intKind = b.intKind := by
  unfold Block.putRxLen; split <;> rfl
@[simp] theorem Block.putRxLen_txbuf (v : BitVec 9) (b : Block) : (Block.putRxLen v b).txbuf = b.txbuf := by
  unfold Block.putRxLen; split <;> rfl
@[simp] theorem Block.putRxLen_regs (v : BitVec 9) (b : Block) : (Block.putRxLen v b).regs = b.regs := by
  unfold Block.putRxLen; split <;> rfl
@[simp] theorem Block.putRxLen_rxbuf (v : BitVec 9) (b : Block) : (Block.putRxLen v b).rxbuf = b.rxbuf := by
  unfold Block.putRxLen; split <;> rfl

@[simp] theorem Block.putRxLen_rxLen (v : BitVec 9) (b : Block) :
    (Block.putRxLen v b).rxLen = if v.toNat ≤ 256 then v else b.rxLen := by
  unfold Block.putRxLen Config.rxCap; split <;> rfl

/-! What the host is told (R53). -/

@[simp] theorem State.reply_block (w : Word) (s : State) : (s.reply w).block = s.block := rfl
@[simp] theorem State.reply_resetAsserted (w : Word) (s : State) : (s.reply w).resetAsserted = s.resetAsserted := rfl
@[simp] theorem State.reply_inbox (w : Word) (s : State) : (s.reply w).inbox = s.inbox := rfl
@[simp] theorem State.reply_replies (w : Word) (s : State) : (s.reply w).replies = s.replies ++ [w] := rfl

/-! Reset (R220). -/

@[simp] theorem State.reset_block : State.reset.block = Block.reset := rfl
@[simp] theorem State.reset_resetAsserted : State.reset.resetAsserted = false := rfl
@[simp] theorem State.reset_inbox : State.reset.inbox = [] := rfl
@[simp] theorem State.reset_replies : State.reset.replies = [] := rfl

end Sys2Proof.Machine
end

