-- ==== Sys2Proof/Laws/Bytes.lean ====
section
/-! SUPPORT. The byte-order operations (R11), as numbers and as inverses of each other. -/

namespace Sys2Proof.Machine

theorem hi8_toNat (v : Half) : (hi8 v).toNat = v.toNat / 256 := by
  have := v.isLt
  simp only [hi8, BitVec.extractLsb'_toNat, Nat.shiftRight_eq_div_pow]
  omega

theorem lo8_toNat (v : Half) : (lo8 v).toNat = v.toNat % 256 := by
  simp only [lo8, BitVec.extractLsb'_toNat, Nat.shiftRight_zero]

theorem be16_toNat (h l : Byte) : (be16 h l).toNat = 256 * h.toNat + l.toNat := by
  have hh := h.isLt
  have hl := l.isLt
  have e : h.toNat <<< 8 % 2 ^ 16 = h.toNat <<< 8 := by
    rw [Nat.shiftLeft_eq]; omega
  simp only [be16, BitVec.toNat_or, BitVec.toNat_shiftLeft, BitVec.toNat_setWidth]
  rw [Nat.mod_eq_of_lt (a := h.toNat) (by omega), Nat.mod_eq_of_lt (a := l.toNat) (by omega), e,
    ← Nat.shiftLeft_add_eq_or_of_lt (by omega), Nat.shiftLeft_eq]
  omega

theorem le16_eq_be16 (l h : Byte) : le16 l h = be16 h l := rfl

theorem le16_toNat (l h : Byte) : (le16 l h).toNat = l.toNat + 256 * h.toNat := by
  rw [le16_eq_be16, be16_toNat]; omega

@[simp] theorem be16_hi8_lo8 (v : Half) : be16 (hi8 v) (lo8 v) = v := by
  apply BitVec.eq_of_toNat_eq
  rw [be16_toNat, hi8_toNat, lo8_toNat]; omega

@[simp] theorem le16_lo8_hi8 (v : Half) : le16 (lo8 v) (hi8 v) = v := be16_hi8_lo8 v

@[simp] theorem hi8_be16 (h l : Byte) : hi8 (be16 h l) = h := by
  apply BitVec.eq_of_toNat_eq
  have := l.isLt
  rw [hi8_toNat, be16_toNat]; omega

@[simp] theorem lo8_be16 (h l : Byte) : lo8 (be16 h l) = l := by
  apply BitVec.eq_of_toNat_eq
  have := l.isLt
  rw [lo8_toNat, be16_toNat]; omega

/-- The two trailer bytes determine the trailer (R144). -/
theorem le16_inj {l h l' h' : Byte} (e : le16 l h = le16 l' h') : l = l' ∧ h = h' := by
  have h1 := congrArg hi8 e
  have h2 := congrArg lo8 e
  simp only [le16_eq_be16, hi8_be16, lo8_be16] at h1 h2
  exact ⟨h2, h1⟩

end Sys2Proof.Machine
end

