-- ==== Sys2Proof/Laws/Crc.lean ====
section
/-! SUPPORT. What the CRC's iteration does (R101): it is linear, it undoes a shift by eight, and only 0 goes to 0. -/

namespace Sys2Proof.Machine

@[simp] theorem crcIters_zero (c : Half) : crcIters 0 c = c := rfl

theorem crcIters_succ (k : Nat) (c : Half) : crcIters (k + 1) c = crcIters k (crcIter c) := rfl

/-- One iteration is linear. -/
theorem crcIter_xor (x y : Half) : crcIter (x ^^^ y) = crcIter x ^^^ crcIter y := by
  unfold crcIter
  rw [BitVec.getLsbD_xor, BitVec.ushiftRight_xor_distrib]
  generalize x >>> 1 = a
  generalize y >>> 1 = b
  generalize Config.crcPoly = p
  cases x.getLsbD 0 <;> cases y.getLsbD 0 <;> simp
  · ac_rfl
  · ac_rfl
  · rw [show a ^^^ p ^^^ (b ^^^ p) = a ^^^ b ^^^ (p ^^^ p) by ac_rfl]; simp

/-- So are `k` of them. -/
theorem crcIters_xor (k : Nat) (x y : Half) : crcIters k (x ^^^ y) = crcIters k x ^^^ crcIters k y := by
  induction k generalizing x y with
  | zero => rfl
  | succ k ih => simp only [crcIters_succ, crcIter_xor, ih]

/-- Eight iterations bring a byte in the high half down to the low half, since no XOR is applied on the way. -/
theorem crcIters_shifted_byte (h : Byte) : crcIters 8 (h.setWidth 16 <<< 8) = h.setWidth 16 := by
  revert h; decide +kernel

/-- An iteration gives 0 for 0 alone: the XOR would leave bit 15 set. -/
theorem crcIter_eq_zero {z : Half} (h : crcIter z = 0#16) : z = 0#16 := by
  unfold crcIter at h
  split at h
  · have := congrArg (fun v => v.getLsbD 15) h
    simp [Config.crcPoly] at this
  · next h0 =>
    apply BitVec.eq_of_getLsbD_eq
    intro i hi
    rcases i with _ | i
    · simpa using h0
    · have := congrArg (fun v => v.getLsbD i) h
      simpa [Nat.add_comm] using this

theorem crcIters_eq_zero (k : Nat) {z : Half} (h : crcIters k z = 0#16) : z = 0#16 := by
  induction k generalizing z with
  | zero => exact h
  | succ k ih => exact crcIter_eq_zero (ih h)

/-- A 16-bit value is its high byte, shifted, and its low byte. -/
theorem half_split (c : Half) : c = ((hi8 c).setWidth 16 <<< 8) ^^^ (lo8 c).setWidth 16 := by
  apply BitVec.eq_of_getLsbD_eq
  intro i hi
  simp only [hi8, lo8, BitVec.getLsbD_xor, BitVec.getLsbD_shiftLeft, BitVec.getLsbD_setWidth,
    BitVec.getLsbD_extractLsb']
  by_cases h : i < 8
  · simp [*]
  · have h3 : 8 + (i - 8) = i := by omega
    have h4 : i - 8 < 8 := by omega
    have h5 : i - 8 < 16 := by omega
    simp [*]

/-- The accumulator's high byte passes through a step unchanged; only its low byte meets the polynomial. -/
theorem crcIters_split (c : Half) :
    crcIters 8 c = (hi8 c).setWidth 16 ^^^ crcIters 8 ((lo8 c).setWidth 16) := by
  conv => lhs; rw [half_split c]
  rw [crcIters_xor, crcIters_shifted_byte]

/-! Sequences (R102). -/

@[simp] theorem crcFold_nil (c : Half) : crcFold c [] = c := rfl

@[simp] theorem crcFold_cons (c : Half) (b : Byte) (s : List Byte) :
    crcFold c (b :: s) = crcFold (crcStep c b) s := rfl

theorem crcFold_append (c : Half) (s t : List Byte) : crcFold c (s ++ t) = crcFold (crcFold c s) t := by
  simp [crcFold]

theorem crc16_append (s t : List Byte) : crc16 (s ++ t) = crcFold (crc16 s) t := crcFold_append _ s t

@[simp] theorem crc16_nil : crc16 [] = Config.crcInit := rfl

end Sys2Proof.Machine
end

