-- ==== Sys2Proof/Laws/Commands.lean ====
section
/-! SUPPORT. One lemma per shared operation and per meaning: what it answers, with every case of it. -/

namespace Sys2Proof.Machine

/-! Ending a command (R9). -/

theorem endCommand_eq (c : StatusCode) (b : Block) (s : State) :
    endCommand c b s = .next { s with block := b.putStatus c } := rfl

theorem endCommand_next {c : StatusCode} {b : Block} {s t : State} (h : endCommand c b s = .next t) :
    t = { s with block := b.putStatus c } := by
  rw [endCommand_eq] at h; exact (Host.Outcome.next.inj h).symm

/-! Storing decoded words (R141). -/

/-- What REGS holds after the words `ws` are stored from entry `k` on. -/
theorem storeWords_get (ws : List Half) (k : Nat) (r : Vector Half 126) (j : Nat) (hj : j < 126) :
    (storeWords ws k r)[j] = if k ≤ j ∧ j < k + ws.length then ws.getD (j - k) 0#16 else r[j] := by
  induction ws generalizing k r with
  | nil =>
    simp only [storeWords, List.length_nil]
    rw [if_neg (by omega)]
  | cons w ws ih =>
    rw [storeWords, ih, Vector.getElem_setIfInBounds]
    simp only [List.length_cons]
    by_cases h1 : k = j
    · subst h1
      rw [if_neg (by omega), if_pos rfl, if_pos (by omega)]; simp
    · by_cases h2 : k + 1 ≤ j ∧ j < k + 1 + ws.length
      · rw [if_pos h2, if_pos (by omega), show j - k = (j - (k + 1)) + 1 by omega]; simp
      · rw [if_neg h2, if_neg h1, if_neg (by omega)]

/-! The received frame (R141). -/

theorem rxFrame_length (b : Block) : (rxFrame b).length = min b.rxLen.toNat 256 := by simp [rxFrame]

theorem rxFrame_length_of_legal {b : Block} (h : b.rxLen.toNat ≤ 256) : (rxFrame b).length = b.rxLen.toNat := by
  rw [rxFrame_length]; omega

/-- Inside the frame, byte i is RXBUF[i]. -/
theorem byteAt_rxFrame (b : Block) {i : Nat} (h : i < b.rxLen.toNat) :
    byteAt (rxFrame b) i = b.rxbuf.toList.getD i 0#8 := by
  simp only [byteAt, rxFrame, List.getD_eq_getElem?_getD, List.getElem?_take, if_pos h]

/-- Two blocks with the same RX_LEN and the same bytes below it hold the same frame (R231). -/
theorem rxFrame_congr {a b : Block} (hl : a.rxLen = b.rxLen)
    (h : ∀ i : Fin 256, i.val < a.rxLen.toNat → a.rxbuf[i] = b.rxbuf[i]) : rxFrame a = rxFrame b := by
  apply List.ext_getElem?
  intro i
  simp only [rxFrame, List.getElem?_take, ← hl]
  split
  · next hi =>
    by_cases h2 : i < 256
    · have := h ⟨i, h2⟩ hi
      simpa [h2] using this
    · simp [h2]
  · rfl

/-! The decoder (R140). -/

theorem extractWords_length (s : List Byte) (n : Nat) : (extractWords s n).length = n := by simp [extractWords]

theorem extractWords_getD (s : List Byte) {n k : Nat} (h : k < n) :
    (extractWords s n).getD k 0#16 = wordAt s k := by
  simp [extractWords, h]

/-- What `decodeResponse` answers, and when (R140, R142, R144, R145). -/
theorem decodeResponse_cases (s : List Byte) (n : Half) :
    (s.length < 3 + 2 * n.toNat ∧ decodeResponse s n = .tooShort) ∨
    (3 + 2 * n.toNat ≤ s.length ∧ crc16 (crcPart s) ≠ crcTrailer s ∧ decodeResponse s n = .crcMismatch) ∨
    (3 + 2 * n.toNat ≤ s.length ∧ crc16 (crcPart s) = crcTrailer s ∧
      decodeResponse s n = .ok (extractWords s n.toNat)) := by
  unfold decodeResponse
  split
  · next h => exact .inl ⟨h, rfl⟩
  · next h =>
    split
    · next h2 => exact .inr (.inl ⟨by omega, h2, rfl⟩)
    · next h2 => exact .inr (.inr ⟨by omega, not_not.mp h2, rfl⟩)

theorem decodeResponse_tooShort {s : List Byte} {n : Half} (h : s.length < 3 + 2 * n.toNat) :
    decodeResponse s n = .tooShort := if_pos h

theorem decodeResponse_crcMismatch {s : List Byte} {n : Half} (h : 3 + 2 * n.toNat ≤ s.length)
    (hc : crc16 (crcPart s) ≠ crcTrailer s) : decodeResponse s n = .crcMismatch := by
  rw [decodeResponse, if_neg (by omega), if_pos hc]

theorem decodeResponse_ok {s : List Byte} {n : Half} (h : 3 + 2 * n.toNat ≤ s.length)
    (hc : crc16 (crcPart s) = crcTrailer s) : decodeResponse s n = .ok (extractWords s n.toNat) := by
  rw [decodeResponse, if_neg (by omega), if_neg (not_not.mpr hc)]

/-- `dec` by what the decoder answers (R141). -/
theorem execDec_of_tooShort {n : Half} {s : State} (h : decodeResponse (rxFrame s.block) n = .tooShort) :
    execDec n s = .next { s with block := s.block.clearDecoded.putStatus .tooShort } := by
  rw [execDec, h]; rfl

theorem execDec_of_crcMismatch {n : Half} {s : State} (h : decodeResponse (rxFrame s.block) n = .crcMismatch) :
    execDec n s = .next { s with block := s.block.clearDecoded.putStatus .crcMismatch } := by
  rw [execDec, h]; rfl

theorem execDec_of_ok {n : Half} {s : State} {ws : List Half} (h : decodeResponse (rxFrame s.block) n = .ok ws) :
    execDec n s = .next { s with block := (s.block.clearDecoded.putDecoded ws n).putStatus .ok } := by
  rw [execDec, h]; rfl

/-- A count whose frame passes the length check fits REGS and DEC_COUNT (R148). -/
theorem count_le_of_accepted {b : Block} {n : Half} (h : 3 + 2 * n.toNat ≤ (rxFrame b).length) : n.toNat ≤ 126 := by
  rw [rxFrame_length] at h; omega

/-- REGS after a successful decode (R146). -/
theorem putDecoded_clear_get (b : Block) (ws : List Half) (n : Half) {j : Nat} (hj : j < 126) :
    (b.clearDecoded.putDecoded ws n).regs[j] = if j < ws.length then ws.getD j 0#16 else 0#16 := by
  simp only [Block.putDecoded_regs, Block.clearDecoded_regs, storeWords_get, Nat.zero_le, true_and, Nat.zero_add,
    Nat.sub_zero, Vector.getElem_replicate]

/-- DEC_COUNT after a successful decode (R146). -/
theorem putDecoded_decCount_toNat (b : Block) (ws : List Half) {n : Half} (h : n.toNat ≤ 126) :
    (b.putDecoded ws n).decCount.toNat = n.toNat := by
  simp only [Block.putDecoded_decCount, BitVec.toNat_setWidth]
  omega

/-- Every command answers a next state: the one that ends with some working copy of the block and some code. -/
theorem exec_eq_endCommand (i : Instr) (s : State) : ∃ c b, exec i s = endCommand c b s := by
  cases i with
  | dec n =>
    show ∃ c b, execDec n s = endCommand c b s
    unfold execDec
    split <;> exact ⟨_, _, rfl⟩
  | _ => exact ⟨_, _, rfl⟩

end Sys2Proof.Machine
end

