-- ==== Sys2Proof/Laws/PortMap.lean ====
section
/-! SUPPORT. The map of the port (R51), and what a port access and a step can do. -/

namespace Sys2Proof.Machine

/-- The index of a slot of the map. -/
def indexOf : Slot → Index
  | .cmd => 0x000#9
  | .status => 0x001#9
  | .crcAcc => 0x002#9
  | .reqAddr => 0x003#9
  | .reqFc => 0x004#9
  | .reqStart => 0x005#9
  | .reqCount => 0x006#9
  | .txLen => 0x007#9
  | .rxLen => 0x008#9
  | .decCount => 0x009#9
  | .intValue => 0x00A#9
  | .intKind => 0x00B#9
  | .txbuf i => BitVec.ofNat 9 (0x040 + i.val)
  | .regs i => BitVec.ofNat 9 (0x080 + i.val)
  | .rxbuf i => BitVec.ofNat 9 (0x100 + i.val)
  | .reserved => 0x020#9

/-- Every slot stands at its index. -/
theorem slotOf_indexOf (k : Slot) : slotOf (indexOf k) = k := by
  cases k with
  | txbuf i => revert i; decide +kernel
  | regs i => revert i; decide +kernel
  | rxbuf i => revert i; decide +kernel
  | _ => decide +kernel

/-- A slot other than the reserved one has one index. -/
theorem indexOf_slotOf (idx : Index) (h : slotOf idx ≠ .reserved) : indexOf (slotOf idx) = idx := by
  revert idx; decide +kernel

theorem slotOf_txbuf (i : Fin 8) : slotOf (BitVec.ofNat 9 (0x040 + i.val)) = .txbuf i := slotOf_indexOf (.txbuf i)
theorem slotOf_regs (i : Fin 126) : slotOf (BitVec.ofNat 9 (0x080 + i.val)) = .regs i := slotOf_indexOf (.regs i)
theorem slotOf_rxbuf (i : Fin 256) : slotOf (BitVec.ofNat 9 (0x100 + i.val)) = .rxbuf i := slotOf_indexOf (.rxbuf i)

/-- The reserved indices (R52). -/
theorem slotOf_reserved_iff (idx : Index) : slotOf idx = .reserved ↔
    (0x00C ≤ idx.toNat ∧ idx.toNat ≤ 0x03F ∨ 0x048 ≤ idx.toNat ∧ idx.toNat ≤ 0x07F ∨
      0x0FE ≤ idx.toNat ∧ idx.toNat ≤ 0x0FF) := by
  revert idx; decide +kernel

/-- Reading the index of a slot reads the slot. -/
theorem portRead_indexOf (k : Slot) (b : Block) : portRead (indexOf k) b = readSlot b k := by
  rw [portRead, slotOf_indexOf]

theorem cmdIndex_slot : slotOf cmdIndex = .cmd := by decide

/-- Only index 0 is CMD. -/
theorem slotOf_eq_cmd {idx : Index} (h : slotOf idx = .cmd) : idx = cmdIndex := by
  revert idx; decide +kernel

/-! The step (R62). -/

theorem step_of_empty {s : State} (h : s.inbox = []) : step s = .next s := by
  rw [step, h]

theorem step_of_action {s : State} {a : HostAction} {rest : List HostAction} (h : s.inbox = a :: rest) :
    step s = perform a { s with inbox := rest } := by
  rw [step, h]

@[simp] theorem perform_read (idx : Index) (s : State) :
    perform (.read idx) s = .next (s.reply (readReply idx s)) := rfl

theorem perform_write {s : State} (h : s.resetAsserted = false) (idx : Index) (v : Word) :
    perform (.write idx v) s = writeSlot v s (slotOf idx) := by
  simp [perform, h, portWrite]

theorem perform_write_under_reset {s : State} (h : s.resetAsserted = true) (idx : Index) (v : Word) :
    perform (.write idx v) s = .next s := by
  simp [perform, h]

theorem readReply_eq {s : State} (h : s.resetAsserted = false) (idx : Index) :
    readReply idx s = portRead idx s.block := by
  simp [readReply, h]

/-- A command word written to CMD: the command, or ILLEGAL_CMD (R56). -/
theorem execute_cases (v : Word) (s : State) :
    (∃ i, decode v = .command i ∧ execute v s = exec i s) ∨
    (∃ why, decode v = .illegal why ∧ execute v s = .next { s with block := s.block.putStatus .illegalCmd }) := by
  unfold execute
  cases h : decode v with
  | command i => exact .inl ⟨i, rfl, rfl⟩
  | illegal why => exact .inr ⟨why, rfl, rfl⟩

/-- A write to a slot: the host's own writes to the block (R54). -/
inductive HostWrite (v : Word) (b : Block) : Slot → Block → Prop where
  | reqAddr : HostWrite v b .reqAddr (b.putReqAddr (v.setWidth 8))
  | reqFc : HostWrite v b .reqFc (b.putReqFc (v.setWidth 8))
  | reqStart : HostWrite v b .reqStart (b.putReqStart (v.setWidth 16))
  | reqCount : HostWrite v b .reqCount (b.putReqCount (v.setWidth 16))
  | rxLen : HostWrite v b .rxLen (b.putRxLen (v.setWidth 9))
  | rxbuf (i : Fin 256) : HostWrite v b (.rxbuf i) (b.putRxByte i (v.setWidth 8))
  | ignored (k : Slot) : HostWrite v b k b

/-- A write to any slot but CMD answers a next state that differs by one host write at most. -/
theorem writeSlot_cases (v : Word) (s : State) (k : Slot) (h : k ≠ .cmd) :
    ∃ b, HostWrite v s.block k b ∧ writeSlot v s k = .next { s with block := b } := by
  cases k with
  | cmd => exact absurd rfl h
  | reqAddr => exact ⟨_, .reqAddr, rfl⟩
  | reqFc => exact ⟨_, .reqFc, rfl⟩
  | reqStart => exact ⟨_, .reqStart, rfl⟩
  | reqCount => exact ⟨_, .reqCount, rfl⟩
  | rxLen => exact ⟨_, .rxLen, rfl⟩
  | rxbuf i => exact ⟨_, .rxbuf i, rfl⟩
  | _ => exact ⟨_, .ignored _, rfl⟩

end Sys2Proof.Machine
end

