-- ==== Sys2Proof/Laws/Words.lean ====
section
/-! SUPPORT. The fields of a command word (R70, R71), as numbers and of an assembled word. -/

namespace Sys2Proof

theorem fieldOp_toNat (v : Word) : (fieldOp v).toNat = v.toNat % 256 := by
  simp only [fieldOp, BitVec.extractLsb'_toNat, Nat.shiftRight_zero]

theorem fieldB_toNat (v : Word) : (fieldB v).toNat = v.toNat / 256 % 256 := by
  simp only [fieldB, BitVec.extractLsb'_toNat, Nat.shiftRight_eq_div_pow]

theorem fieldH_toNat (v : Word) : (fieldH v).toNat = v.toNat / 65536 := by
  have := v.isLt
  simp only [fieldH, BitVec.extractLsb'_toNat, Nat.shiftRight_eq_div_pow]
  omega

theorem commandWord_toNat (op b : Byte) (h : Half) :
    (commandWord op b h).toNat = op.toNat + 256 * b.toNat + 65536 * h.toNat := by
  have h1 := op.isLt
  have h2 := b.isLt
  simp only [commandWord]
  rw [BitVec.toNat_append, ← Nat.shiftLeft_add_eq_or_of_lt h1, BitVec.toNat_append,
    ← Nat.shiftLeft_add_eq_or_of_lt h2]
  simp only [Nat.shiftLeft_eq]
  omega

@[simp] theorem fieldOp_commandWord (op b : Byte) (h : Half) : fieldOp (commandWord op b h) = op := by
  apply BitVec.eq_of_toNat_eq
  have := op.isLt
  rw [fieldOp_toNat, commandWord_toNat]; omega

@[simp] theorem fieldB_commandWord (op b : Byte) (h : Half) : fieldB (commandWord op b h) = b := by
  apply BitVec.eq_of_toNat_eq
  have := op.isLt
  have := b.isLt
  rw [fieldB_toNat, commandWord_toNat]; omega

@[simp] theorem fieldH_commandWord (op b : Byte) (h : Half) : fieldH (commandWord op b h) = h := by
  apply BitVec.eq_of_toNat_eq
  have := op.isLt
  have := b.isLt
  rw [fieldH_toNat, commandWord_toNat]; omega

/-- A word is its three fields. -/
theorem commandWord_fields (v : Word) : commandWord (fieldOp v) (fieldB v) (fieldH v) = v := by
  apply BitVec.eq_of_toNat_eq
  rw [commandWord_toNat, fieldOp_toNat, fieldB_toNat, fieldH_toNat]; omega

/-- Two words with the same fields are one word. -/
theorem eq_of_fields {v w : Word} (h1 : fieldOp v = fieldOp w) (h2 : fieldB v = fieldB w)
    (h3 : fieldH v = fieldH w) : v = w := by
  rw [← commandWord_fields v, ← commandWord_fields w, h1, h2, h3]

/-- The mask that keeps OP and B (R72). -/
theorem maskLow_toNat (v : Word) : (v &&& 0x0000FFFF#32).toNat = v.toNat % 65536 := by
  rw [BitVec.toNat_and]
  exact Nat.and_two_pow_sub_one_eq_mod v.toNat 16

/-- The mask that keeps H and OP (R72): a word meets `crc.byte`'s row when its H is 0 and its OP is the row's. -/
theorem maskByteRow_iff (v : Word) :
    v &&& 0xFFFF00FF#32 = 0x00000002#32 ↔ fieldH v = 0#16 ∧ fieldOp v = 0x02#8 := by
  have e : v &&& 0xFFFF00FF#32 = commandWord (fieldOp v) 0#8 (fieldH v) := by
    conv => lhs; rw [← commandWord_fields v]
    apply BitVec.eq_of_getLsbD_eq
    intro i hi
    have hm : (0xFFFF00FF#32).getLsbD i = (decide (i < 8) || (decide (16 ≤ i) && decide (i < 32))) := by
      revert i; decide
    rw [BitVec.getLsbD_and, hm]
    simp only [commandWord]
    rw [BitVec.getLsbD_append, BitVec.getLsbD_append, BitVec.getLsbD_append, BitVec.getLsbD_append]
    by_cases h1 : i < 8
    · simp [h1]
    · by_cases h2 : i < 16
      · have : i - 8 < 8 := by omega
        simp [h1, this, h2]
      · have : ¬ i - 8 < 8 := by omega
        simp [h1, this, hi, show 16 ≤ i by omega]
  rw [e]
  constructor
  · intro h
    have h1 := congrArg fieldH h
    have h2 := congrArg fieldOp h
    simp only [fieldH_commandWord, fieldOp_commandWord] at h1 h2
    exact ⟨h1, h2⟩
  · rintro ⟨h1, h2⟩
    rw [h1, h2]; decide

/-- The mask that keeps OP and B: a word meets such a row when its OP and B are the row's. -/
theorem maskLowRow_iff (v : Word) (op b : Byte) :
    v &&& 0x0000FFFF#32 = commandWord op b 0#16 ↔ fieldOp v = op ∧ fieldB v = b := by
  have h1 := op.isLt
  have h2 := b.isLt
  rw [← BitVec.toNat_inj, maskLow_toNat, commandWord_toNat, ← BitVec.toNat_inj, ← BitVec.toNat_inj, fieldOp_toNat,
    fieldB_toNat]
  simp only [BitVec.toNat_ofNat]
  omega

/-- A word equals a word with given fields when its fields are those. -/
theorem eq_commandWord_iff (v : Word) (op b : Byte) (h : Half) :
    v = commandWord op b h ↔ fieldOp v = op ∧ fieldB v = b ∧ fieldH v = h := by
  constructor
  · rintro rfl; simp
  · rintro ⟨h1, h2, h3⟩
    rw [← commandWord_fields v, h1, h2, h3]

/-- Decoding, by the fields of the word (R74): the rows of R72 as tests on OP, B and H. -/
theorem decode_by_fields (v : Word) : decode v =
    if fieldOp v = 0x01#8 ∧ fieldB v = 0#8 ∧ fieldH v = 0#16 then .command .crcInit
    else if fieldH v = 0#16 ∧ fieldOp v = 0x02#8 then .command (.crcByte (fieldB v))
    else if fieldOp v = 0x10#8 ∧ fieldB v = 0#8 ∧ fieldH v = 0#16 then .command .enc
    else if fieldOp v = 0x20#8 ∧ fieldB v = 0x00#8 then .command (.dec (fieldH v))
    else if fieldOp v = 0x30#8 ∧ fieldB v = 0x00#8 then .command (.intPass (fieldH v))
    else if fieldOp v = 0x30#8 ∧ fieldB v = 0x01#8 then .command (.intMask12 (fieldH v))
    else if fieldOp v = 0x30#8 ∧ fieldB v = 0x02#8 then .command (.intBool1 (fieldH v))
    else .illegal (rejectOf v) := by
  have r1 := eq_commandWord_iff v 0x01#8 0#8 0#16
  have r2 := eq_commandWord_iff v 0x10#8 0#8 0#16
  have r3 := maskLowRow_iff v 0x20#8 0x00#8
  have r4 := maskLowRow_iff v 0x30#8 0x00#8
  have r5 := maskLowRow_iff v 0x30#8 0x01#8
  have r6 := maskLowRow_iff v 0x30#8 0x02#8
  rw [show commandWord 0x01#8 0#8 0#16 = 0x00000001#32 by decide] at r1
  rw [show commandWord 0x10#8 0#8 0#16 = 0x00000010#32 by decide] at r2
  rw [show commandWord 0x20#8 0x00#8 0#16 = 0x00000020#32 by decide] at r3
  rw [show commandWord 0x30#8 0x00#8 0#16 = 0x00000030#32 by decide] at r4
  rw [show commandWord 0x30#8 0x01#8 0#16 = 0x00000130#32 by decide] at r5
  rw [show commandWord 0x30#8 0x02#8 0#16 = 0x00000230#32 by decide] at r6
  unfold decode
  simp only [r1, r2, r3, r4, r5, r6, maskByteRow_iff]

end Sys2Proof
end

