-- ==== Sys2Proof/Laws/Run.lean ====
section
/-! SUPPORT. Runs of the machine, one step at a time, and what one action does to the whole state. -/

namespace Sys2Proof.Machine

theorem core_run_zero (s : State) : Sys2Proof.core.run 0 s = .next s := rfl

theorem core_run_succ {s t : State} (h : step s = .next t) (k : Nat) :
    Sys2Proof.core.run (k + 1) s = Sys2Proof.core.run k t := by
  have h' : Sys2Proof.core.step s = .next t := h
  simp only [Host.Core.run]
  rw [h']

/-- A run of `j + k` steps is a run of `k` from where `j` steps lead. -/
theorem core_run_add {j : Nat} {s t : State} (h : Sys2Proof.core.run j s = .next t) (k : Nat) :
    Sys2Proof.core.run (j + k) s = Sys2Proof.core.run k t := by
  induction j generalizing s with
  | zero =>
    rw [core_run_zero] at h
    rw [Host.Outcome.next.inj h, Nat.zero_add]
  | succ j ih =>
    have e : j + 1 + k = (j + k) + 1 := by omega
    cases hs : step s with
    | next s' =>
      rw [core_run_succ hs] at h
      rw [e, core_run_succ hs]
      exact ih h
    | fault r => exact nomatch r
    | refused r =>
      have hs' : Sys2Proof.core.step s = .refused r := hs
      simp only [Host.Core.run] at h
      rw [hs'] at h
      cases h

/-- The word of a command, as a number, is the word again. -/
theorem tableWord_toNat (v : Word) : tableWord 32 v.toNat = v := by
  apply BitVec.eq_of_toNat_eq
  have := v.isLt
  simp only [tableWord, BitVec.toNat_ofNat]
  omega

/-- A command word written to CMD is executed (R56). -/
theorem perform_cmd {s : State} (h : s.resetAsserted = false) (v : Word) :
    perform (.write cmdIndex v) s = execute v s := by
  rw [perform_write h, cmdIndex_slot]; rfl

theorem execute_of_command {v : Word} {i : Instr} (h : decode v = .command i) (s : State) :
    execute v s = exec i s := by
  rw [execute, h]

theorem execute_of_illegal {v : Word} {why : Reject} (h : decode v = .illegal why) (s : State) :
    execute v s = .next { s with block := s.block.putStatus .illegalCmd } := by
  rw [execute, h]; rfl

/-- Everything one action can do. -/
inductive ActionEffect (s : State) : HostAction → State → Prop where
  | read (idx : Index) : ActionEffect s (.read idx) (s.reply (readReply idx s))
  | underReset (idx : Index) (v : Word) (h : s.resetAsserted = true) : ActionEffect s (.write idx v) s
  | command (v : Word) (i : Instr) (t : State) (h : s.resetAsserted = false) (hd : decode v = .command i)
      (he : exec i s = .next t) : ActionEffect s (.write cmdIndex v) t
  | illegal (v : Word) (why : Reject) (h : s.resetAsserted = false) (hd : decode v = .illegal why) :
      ActionEffect s (.write cmdIndex v) { s with block := s.block.putStatus .illegalCmd }
  | hostWrite (idx : Index) (v : Word) (b : Block) (h : s.resetAsserted = false) (hk : slotOf idx ≠ .cmd)
      (hb : HostWrite v s.block (slotOf idx) b) : ActionEffect s (.write idx v) { s with block := b }
  | assertReset : ActionEffect s .assertReset { s with block := Block.reset, resetAsserted := true }
  | releaseReset : ActionEffect s .releaseReset { s with resetAsserted := false }

/-- An action answers a next state, and one of the effects above is what it does. -/
theorem perform_effect (a : HostAction) (s : State) : ∃ t, perform a s = .next t ∧ ActionEffect s a t := by
  cases a with
  | read idx => exact ⟨_, rfl, .read idx⟩
  | assertReset => exact ⟨_, rfl, .assertReset⟩
  | releaseReset => exact ⟨_, rfl, .releaseReset⟩
  | write idx v =>
    by_cases hr : s.resetAsserted = true
    · exact ⟨s, perform_write_under_reset hr idx v, .underReset idx v hr⟩
    · have hr' : s.resetAsserted = false := by simpa using hr
      by_cases hk : slotOf idx = .cmd
      · rw [slotOf_eq_cmd hk, perform_cmd hr']
        rcases execute_cases v s with ⟨i, hd, h⟩ | ⟨w, hd, h⟩
        · obtain ⟨c, b, he⟩ := exec_eq_endCommand i s
          rw [endCommand_eq] at he
          exact ⟨_, h.trans he, .command v i _ hr' hd he⟩
        · exact ⟨_, h, .illegal v w hr' hd⟩
      · obtain ⟨b, hb, h⟩ := writeSlot_cases v s (slotOf idx) hk
        exact ⟨_, (perform_write hr' idx v).trans h, .hostWrite idx v b hr' hk hb⟩

/-! An action's environment: it moves neither the pending actions nor, but for a read, the replies. -/

theorem exec_next_environment {i : Instr} {s t : State} (h : exec i s = .next t) :
    t.resetAsserted = s.resetAsserted ∧ t.inbox = s.inbox ∧ t.replies = s.replies := by
  obtain ⟨c, b, he⟩ := exec_eq_endCommand i s
  rw [h] at he
  have := endCommand_next he.symm
  subst this
  exact ⟨rfl, rfl, rfl⟩

theorem ActionEffect.inbox_eq {s t : State} {a : HostAction} (h : ActionEffect s a t) : t.inbox = s.inbox := by
  cases h with
  | command v i _ _ _ he => exact (exec_next_environment he).2.1
  | _ => rfl

/-! No command and no port access looks at the pending actions (R65). -/

theorem exec_inbox (i : Instr) {s t : State} (l : List HostAction) (h : exec i s = .next t) :
    exec i { s with inbox := l } = .next { t with inbox := l } := by
  cases i with
  | dec n =>
    have h' : execDec n s = .next t := h
    show execDec n { s with inbox := l } = _
    rcases decodeResponse_cases (rxFrame s.block) n with ⟨-, hd⟩ | ⟨-, -, hd⟩ | ⟨-, -, hd⟩
    · rw [execDec_of_tooShort hd] at h'; cases h'
      exact execDec_of_tooShort (s := { s with inbox := l }) hd
    · rw [execDec_of_crcMismatch hd] at h'; cases h'
      exact execDec_of_crcMismatch (s := { s with inbox := l }) hd
    · rw [execDec_of_ok hd] at h'; cases h'
      exact execDec_of_ok (s := { s with inbox := l }) hd
  | _ => have := endCommand_next h; subst this; rfl

theorem perform_inbox (a : HostAction) {s t : State} (l : List HostAction) (h : perform a s = .next t) :
    perform a { s with inbox := l } = .next { t with inbox := l } := by
  cases a with
  | read => cases h; rfl
  | assertReset => cases h; rfl
  | releaseReset => cases h; rfl
  | write idx v =>
    by_cases hr : s.resetAsserted = true
    · have h2 := perform_write_under_reset (s := { s with inbox := l }) hr idx v
      rw [perform_write_under_reset hr idx v] at h; cases h; exact h2
    · have hr' : s.resetAsserted = false := by simpa using hr
      rw [perform_write hr' idx v] at h
      rw [perform_write (s := { s with inbox := l }) hr' idx v]
      generalize slotOf idx = k at *
      cases k with
      | cmd =>
        have h' : execute v s = .next t := h
        show execute v { s with inbox := l } = _
        rcases hd : decode v with i | w
        · rw [execute_of_command hd] at *; exact exec_inbox i l h'
        · rw [execute_of_illegal hd] at *; cases h'; rfl
      | _ => cases h; rfl

/-- A step performs the next action and drops it from the pending ones. -/
theorem step_of_perform {a : HostAction} {s t : State} (h : perform a s = .next t) (rest : List HostAction) :
    step { s with inbox := a :: rest } = .next { t with inbox := rest } := by
  have h2 := perform_inbox a rest h
  exact h2

/-! `withFetchWord` (log entry 1). -/

@[simp] theorem withFetchWord_block (s : State) (n w : Nat) : (s.withFetchWord n w).block = s.block := rfl
@[simp] theorem withFetchWord_inbox (s : State) (n w : Nat) :
    (s.withFetchWord n w).inbox = .write cmdIndex (tableWord n w) :: s.inbox := rfl
@[simp] theorem withFetchWord_resetAsserted (s : State) (n w : Nat) :
    (s.withFetchWord n w).resetAsserted = false := rfl
@[simp] theorem withFetchWord_replies (s : State) (n w : Nat) : (s.withFetchWord n w).replies = s.replies := rfl

end Sys2Proof.Machine
end

