-- ==== Sys2Proof/Laws/HostAgent.lean ====
section
/-! SUPPORT. What the host agent's sequences of accesses do to the block (R236, R237). -/

namespace Sys2Proof.Machine

@[simp] theorem andThen_next {α β : Type} (a : α) (f : α → Host.Outcome β Fault Refusal) :
    andThen (.next a) f = f a := rfl

theorem performAll_cons {a : HostAction} {s t : State} (h : perform a s = .next t) (rest : List HostAction) :
    performAll (a :: rest) s = performAll rest t := by
  rw [performAll, h, andThen_next]

theorem performAll_append (l m : List HostAction) (s : State) :
    performAll (l ++ m) s = andThen (performAll l s) (performAll m) := by
  induction l generalizing s with
  | nil => rfl
  | cons a l ih =>
    obtain ⟨t, h, -⟩ := perform_effect a s
    rw [List.cons_append, performAll_cons h, performAll_cons h, ih]

/-- A byte written through the port arrives whole. -/
theorem setWidth_byte (v : Byte) : (v.setWidth 32).setWidth 8 = v := by
  apply BitVec.eq_of_toNat_eq; simp

/-- So does a 16-bit value. -/
theorem setWidth_half (v : Half) : (v.setWidth 32).setWidth 16 = v := by
  apply BitVec.eq_of_toNat_eq; simp

/-- A legal command's word decodes to it, so issuing it performs it. -/
theorem perform_issue {s : State} (h : s.resetAsserted = false) {i : Instr} (hd : decode (encode i) = .command i) :
    perform (issue i) s = exec i s :=
  (perform_cmd h _).trans (execute_of_command hd s)

/-- The block after a reading's request is built (R237). -/
def requestBlock (r : ReadingSpec) (b : Block) : Block :=
  (((b.putReqStart r.startAddress).putReqCount r.registerCount).putTxFrame
    (buildRequest b.reqAddr b.reqFc r.startAddress r.registerCount)).putStatus .ok

theorem performAll_requestActions {s : State} (h : s.resetAsserted = false) (r : ReadingSpec) :
    performAll (requestActions r) s = .next { s with block := requestBlock r s.block } := by
  have h1 : perform (.write 0x005#9 (r.startAddress.setWidth 32)) s =
      .next { s with block := s.block.putReqStart r.startAddress } := by
    rw [perform_write h]
    show setBlock (s.block.putReqStart _) s = _
    rw [setWidth_half]; rfl
  have h2 : perform (.write 0x006#9 (r.registerCount.setWidth 32))
      { s with block := s.block.putReqStart r.startAddress } =
      .next { s with block := (s.block.putReqStart r.startAddress).putReqCount r.registerCount } := by
    rw [perform_write (by exact h)]
    show setBlock ((s.block.putReqStart r.startAddress).putReqCount _) _ = _
    rw [setWidth_half]; rfl
  unfold requestActions
  rw [performAll_cons h1, performAll_cons h2]
  rw [performAll_cons ((perform_issue (by exact h) (by decide)).trans rfl)]
  rfl

/-- Reading leaves the block and the reset input. -/
theorem readAll_block (idxs : List Index) (s : State) :
    (readAll idxs s).block = s.block ∧ (readAll idxs s).resetAsserted = s.resetAsserted := by
  induction idxs generalizing s with
  | nil => exact ⟨rfl, rfl⟩
  | cons i is ih => exact ih (s.reply (readReply i s))

/-- The block with another RXBUF and RX_LEN. -/
def Block.withReceived (rx : Vector Byte 256) (n : BitVec 9) (b : Block) : Block := { b with rxbuf := rx, rxLen := n }

/-- Storing bytes from entry k on changes those entries of RXBUF and nothing else. -/
theorem performAll_storeBytes (bytes : List Byte) (k : Nat) {s : State} (h : s.resetAsserted = false)
    (hk : k + bytes.length ≤ 256) :
    ∃ rx : Vector Byte 256, performAll (storeBytes k bytes) s = .next { s with block := s.block.withReceived rx s.block.rxLen } ∧
      ∀ (j : Nat) (hj : j < 256), rx[j] =
        if k ≤ j ∧ j < k + bytes.length then bytes.getD (j - k) 0#8 else s.block.rxbuf[j] := by
  induction bytes generalizing k s with
  | nil =>
    refine ⟨s.block.rxbuf, rfl, fun j hj => ?_⟩
    rw [if_neg (by simp)]
  | cons x bytes ih =>
    simp only [List.length_cons] at hk
    have hx : perform (.write (rxIndex k) (x.setWidth 32)) s =
        .next { s with block := s.block.putRxByte ⟨k, by omega⟩ x } := by
      rw [perform_write h, show slotOf (rxIndex k) = .rxbuf ⟨k, by omega⟩ from slotOf_rxbuf ⟨k, by omega⟩]
      show setBlock (s.block.putRxByte _ _) s = _
      rw [setWidth_byte]; rfl
    obtain ⟨rx, h1, h2⟩ := ih (k + 1) (s := { s with block := s.block.putRxByte ⟨k, by omega⟩ x }) h (by omega)
    refine ⟨rx, by rw [storeBytes, performAll_cons hx, h1]; rfl, fun j hj => ?_⟩
    rw [h2 j hj]
    simp only [List.length_cons]
    by_cases hj1 : j = k
    · subst hj1
      rw [if_neg (by omega), if_pos (by omega)]
      simp
    · by_cases hj2 : k + 1 ≤ j ∧ j < k + 1 + bytes.length
      · rw [if_pos hj2, if_pos (by omega), show j - k = (j - (k + 1)) + 1 by omega]; simp
      · rw [if_neg hj2, if_neg (by omega)]
        show (s.block.rxbuf.set k x (by omega))[j] = _
        rw [Vector.getElem_set_ne (by omega) hj (by omega)]

/-- A received frame handed to the block is the frame `dec` sees (R231). -/
theorem performAll_receiveActions (bytes : List Byte) {s : State} (h : s.resetAsserted = false)
    (hl : bytes.length ≤ 256) :
    ∃ rx n, performAll (receiveActions bytes) s =
      .next { s with block := s.block.withReceived rx n } ∧
      (s.block.withReceived rx n).holds bytes := by
  obtain ⟨rx, h1, h2⟩ := performAll_storeBytes bytes 0 h (by omega)
  have hn : ((BitVec.ofNat 32 bytes.length).setWidth 9).toNat = bytes.length := by simp; omega
  refine ⟨rx, (BitVec.ofNat 32 bytes.length).setWidth 9, ?_, hn, ?_⟩
  · rw [receiveActions, performAll_append, h1, andThen_next]
    have hw : perform (.write rxLenIndex (BitVec.ofNat 32 bytes.length)) { s with block := s.block.withReceived rx s.block.rxLen } =
        .next { s with block := s.block.withReceived rx ((BitVec.ofNat 32 bytes.length).setWidth 9) } := by
      rw [perform_write (by exact h)]
      show setBlock (Block.putRxLen _ _) _ = _
      rw [Block.putRxLen_of_legal (by rw [hn]; exact hl)]; rfl
    rw [performAll_cons hw]; rfl
  · show rx.toList.take ((BitVec.ofNat 32 bytes.length).setWidth 9).toNat = bytes
    rw [hn]
    apply List.ext_getElem?
    intro i
    rw [List.getElem?_take]
    by_cases hi : i < bytes.length
    · have := h2 i (by omega)
      rw [if_pos (by omega)] at this
      rw [if_pos hi, Vector.getElem?_toList, Vector.getElem?_eq_getElem (by omega), this]
      simp [hi]
    · rw [if_neg hi, List.getElem?_eq_none (by omega)]

/-! Sending (R236): the eight reads of TXBUF. -/

theorem readReply_txIndex {s : State} (h : s.resetAsserted = false) (i : Fin 8) :
    (readReply (txIndex i.val) s).setWidth 8 = s.block.txbuf[i] := by
  rw [readReply_eq h, portRead, show slotOf (txIndex i.val) = .txbuf i from slotOf_txbuf i]
  exact setWidth_byte _

theorem sentBytes_eq {s : State} (h : s.resetAsserted = false) :
    (txIndices.map fun idx => (readReply idx s).setWidth 8) = s.block.txbuf.toList := by
  apply List.ext_getElem
  · simp [txIndices]
  · intro i h1 h2
    have hi : i < 8 := by simpa using h2
    have := readReply_txIndex h ⟨i, hi⟩
    simp only [txIndices, List.getElem_map, List.getElem_range, Vector.getElem_toList]
    exact this

/-- What a reading leaves of the request registers a cycle shares (R224): REQ_ADDR and REQ_FC stay. -/
def KeepsAddress (s t : State) : Prop := t.block.reqAddr = s.block.reqAddr ∧ t.block.reqFc = s.block.reqFc

theorem exec_keepsAddress {i : Instr} {s t : State} (h : exec i s = .next t) : KeepsAddress s t := by
  cases i with
  | dec n =>
    have h' : execDec n s = .next t := h
    rcases decodeResponse_cases (rxFrame s.block) n with ⟨-, hd⟩ | ⟨-, -, hd⟩ | ⟨-, -, hd⟩
    · rw [execDec_of_tooShort hd] at h'; cases h'; exact ⟨rfl, rfl⟩
    · rw [execDec_of_crcMismatch hd] at h'; cases h'; exact ⟨rfl, rfl⟩
    · rw [execDec_of_ok hd] at h'; cases h'; exact ⟨rfl, rfl⟩
  | _ => have := endCommand_next h; subst this; exact ⟨rfl, rfl⟩

/-! Commands the agent issues. -/

theorem decode_dec (n : Half) : decode (encode (.dec n)) = .command (.dec n) := by
  rw [decode_by_fields]; simp [encode]

theorem decode_interpCommand (m : InterpMode) (r : Half) :
    decode (encode (interpCommand m r)) = .command (interpCommand m r) := by
  rw [decode_by_fields]; cases m <;> simp [encode, interpCommand]

theorem exec_interpCommand (m : InterpMode) (r : Half) (s : State) :
    exec (interpCommand m r) s = endCommand .ok (s.block.putInterpreted (interpret m r)) s := by
  cases m <;> rfl

/-- A reading whose line answers bytes, up to the end of its `dec` (R237): its request frame is sent, and the block
decodes the bytes read from some state that holds them. -/
theorem pollReading_bytes (r : ReadingSpec) (bytes : List Byte) (time : Nat) {s : State}
    (h : s.resetAsserted = false) :
    ∃ t u : State, t.block.holds (readLimit bytes) ∧ exec (.dec r.registerCount) t = .next u ∧
      u.resetAsserted = false ∧ KeepsAddress s u ∧ pollReading r ⟨.bytes bytes, time⟩ s = concludeReading r time
        (buildRequest s.block.reqAddr s.block.reqFc r.startAddress r.registerCount).toList u := by
  obtain ⟨s1, hs1, h1, hk1, htx⟩ : ∃ s1, performAll (requestActions r) s = .next s1 ∧ s1.resetAsserted = false ∧
      KeepsAddress s s1 ∧ s1.block.txbuf = buildRequest s.block.reqAddr s.block.reqFc r.startAddress r.registerCount :=
    ⟨_, performAll_requestActions h r, h, ⟨rfl, rfl⟩, rfl⟩
  have h2 : (readAll txIndices s1).resetAsserted = false := (readAll_block txIndices s1).2.trans h1
  have hlen : (readLimit bytes).length ≤ 256 := by simp [readLimit, Config.rxCap]
  obtain ⟨s2, hs2⟩ : ∃ s2, readAll txIndices s1 = s2 := ⟨_, rfl⟩
  have hk2 : KeepsAddress s s2 := by
    rw [KeepsAddress, ← hs2, (readAll_block txIndices s1).1]; exact hk1
  rw [hs2] at h2
  obtain ⟨rx, n, h3, hh⟩ := performAll_receiveActions (readLimit bytes) h2 hlen
  generalize ht : ({ s2 with block := s2.block.withReceived rx n } : State) = t at h3
  have hrt : t.resetAsserted = false := by rw [← ht]; exact h2
  have hht : t.block.holds (readLimit bytes) := by rw [← ht]; exact hh
  obtain ⟨c, b, hx⟩ := exec_eq_endCommand (.dec r.registerCount) t
  rw [endCommand_eq] at hx
  have hk : KeepsAddress s t := by rw [← ht]; exact hk2
  have hku := exec_keepsAddress hx
  refine ⟨t, _, hht, hx, hrt, ⟨hku.1.trans hk.1, hku.2.trans hk.2⟩, ?_⟩
  have hp := (perform_issue hrt (decode_dec r.registerCount)).trans hx
  rw [pollReading, hs1, andThen_next]
  simp only
  rw [sentBytes_eq h1, htx, hs2, performAll_append, h3, andThen_next, performAll_cons hp, performAll, andThen_next]

/-- A reading whose transport fails (R240). -/
theorem pollReading_ioError (r : ReadingSpec) (time : Nat) {s : State} (h : s.resetAsserted = false) :
    ∃ p, pollReading r ⟨.ioError, time⟩ s = .next p ∧ p.state.resetAsserted = false ∧ KeepsAddress s p.state ∧
      p.sent = (buildRequest s.block.reqAddr s.block.reqFc r.startAddress r.registerCount).toList ∧ p.record = .diagnostic r.name .ioError := by
  obtain ⟨s1, hs1, h1, hk1, htx⟩ : ∃ s1, performAll (requestActions r) s = .next s1 ∧ s1.resetAsserted = false ∧
      KeepsAddress s s1 ∧ s1.block.txbuf = buildRequest s.block.reqAddr s.block.reqFc r.startAddress r.registerCount :=
    ⟨_, performAll_requestActions h r, h, ⟨rfl, rfl⟩, rfl⟩
  have hb := readAll_block txIndices s1
  rw [pollReading, hs1, andThen_next]
  simp only
  rw [sentBytes_eq h1, htx]
  exact ⟨_, rfl, hb.2.trans h1, by rw [KeepsAddress, hb.1]; exact hk1, rfl, rfl⟩

/-- The output value of the interpreter's result is the reading's value (R181). -/
theorem valueOf_interpret (m : InterpMode) (w : Half) :
    valueOf ((interpret m w).1.code.setWidth 32) ((interpret m w).2.setWidth 32) = readingValue m w := by
  cases m with
  | pass =>
    show ReadingValue.integer _ = .integer w
    rw [show (interpret .pass w).2 = w from rfl, setWidth_half]
  | mask12 =>
    show ReadingValue.integer ((BitVec.setWidth 32 (w &&& Config.mask12)).setWidth 16) = .integer _
    rw [setWidth_half]
    congr 1
    apply BitVec.eq_of_toNat_eq
    rw [BitVec.toNat_and, BitVec.toNat_ofNat, show Config.mask12.toNat = 2 ^ 12 - 1 by decide,
      Nat.and_two_pow_sub_one_eq_mod]
    have := w.isLt
    omega
  | bool1 =>
    have hm : w &&& Config.mask1 = if w.getLsbD 0 then 1#16 else 0#16 := by
      apply BitVec.eq_of_getLsbD_eq
      intro i hi
      have h1 : Config.mask1.getLsbD i = decide (i = 0) := by
        revert i; decide
      rw [BitVec.getLsbD_and, h1]
      by_cases h0 : i = 0
      · subst h0; cases w.getLsbD 0 <;> rfl
      · have h2 : (1#16).getLsbD i = false := by
          revert i; decide
        cases w.getLsbD 0 <;> simp [h0, h2]
    show valueOf 1#32 ((w &&& Config.mask1).setWidth 32) = _
    rw [hm]
    simp only [readingValue]
    cases w.getLsbD 0 <;> rfl

/-- What the end of a reading records (R237): with STATUS OK the value of REGS[0] in the reading's mode, else the kind
of failure STATUS stands for. -/
theorem concludeReading_spec (r : ReadingSpec) (time : Nat) (sent : List Byte) {u : State}
    (h : u.resetAsserted = false) :
    ∃ p, concludeReading r time sent u = .next p ∧ p.sent = sent ∧ p.state.resetAsserted = false ∧
      KeepsAddress u p.state ∧ p.record =
      if u.block.status = 1#3 then .output r.name (readingValue r.mode u.block.regs[0]) time
      else .diagnostic r.name (failureOf (u.block.status.setWidth 32)) := by
  have hst : readReply statusIndex u = u.block.status.setWidth 32 := (readReply_eq h _).trans rfl
  by_cases hs : u.block.status = 1#3
  · generalize hs1 : u.reply (u.block.status.setWidth 32) = s1
    have h1 : s1.resetAsserted = false := by rw [← hs1]; exact h
    have hb1 : s1.block = u.block := by rw [← hs1]; rfl
    have hw : readReply (regsIndex 0) s1 = (u.block.regs[0]).setWidth 32 := by
      rw [readReply_eq h1, hb1, portRead, show slotOf (regsIndex 0) = .regs 0 from slotOf_regs 0]; rfl
    generalize hs2 : s1.reply ((u.block.regs[0]).setWidth 32) = s2
    have h2 : s2.resetAsserted = false := by rw [← hs2]; exact h1
    have hp : perform (issue (interpCommand r.mode u.block.regs[0])) s2 =
        .next { s2 with block := (s2.block.putInterpreted (interpret r.mode u.block.regs[0])).putStatus .ok } := by
      rw [perform_issue h2 (decode_interpCommand _ _), exec_interpCommand, endCommand_eq]
    generalize hs3 : ({ s2 with block :=
      (s2.block.putInterpreted (interpret r.mode u.block.regs[0])).putStatus .ok } : State) = s3 at hp
    have h3 : s3.resetAsserted = false := by rw [← hs3]; exact h2
    have hk3 : KeepsAddress u s3 := by rw [← hs3, ← hs2, ← hs1]; exact ⟨rfl, rfl⟩
    have hv : readReply intValueIndex s3 = (interpret r.mode u.block.regs[0]).2.setWidth 32 := by
      rw [readReply_eq h3, ← hs3]; rfl
    have hk : ∀ w, readReply intKindIndex (s3.reply w) = (interpret r.mode u.block.regs[0]).1.code.setWidth 32 := by
      intro w
      rw [readReply_eq (by exact h3), ← hs3]; rfl
    have hsw : u.block.status.setWidth 32 = 1#32 := by rw [hs]; rfl
    unfold concludeReading
    simp only [hst, hs1]
    rw [if_pos hsw]
    simp only [hw, setWidth_half, hs2, hp, andThen_next, hv, hk, valueOf_interpret]
    exact ⟨_, rfl, rfl, h3, hk3, by rw [if_pos hs]⟩
  · have hsw : u.block.status.setWidth 32 ≠ 1#32 := by
      intro e; apply hs
      apply BitVec.eq_of_toNat_eq
      have h1 := congrArg BitVec.toNat e
      have h2 := u.block.status.isLt
      simp at h1 ⊢; omega
    unfold concludeReading
    simp only [hst]
    rw [if_neg hsw]
    exact ⟨_, rfl, rfl, h, ⟨rfl, rfl⟩, by rw [if_neg hs]⟩

end Sys2Proof.Machine
end

