-- ==== Sys2Proof/Laws/PerInstr.lean ====
section
/-! SUPPORT. What holds of every command as syntax, one lemma a constructor: its word is one its own row of the opcode
map selects (R72), and its operands are in the ranges the assembler takes (R76). -/

namespace Sys2Proof.Laws.RowSelectsEncoding

/-- The row of R72 a command stands in. -/
def rowOf : Instr → OpcodeRow
  | .crcInit => ⟨0xFFFFFFFF#32, 0x00000001#32⟩
  | .crcByte _ => ⟨0xFFFF00FF#32, 0x00000002#32⟩
  | .enc => ⟨0xFFFFFFFF#32, 0x00000010#32⟩
  | .dec _ => ⟨0x0000FFFF#32, 0x00000020#32⟩
  | .intPass _ => ⟨0x0000FFFF#32, 0x00000030#32⟩
  | .intMask12 _ => ⟨0x0000FFFF#32, 0x00000130#32⟩
  | .intBool1 _ => ⟨0x0000FFFF#32, 0x00000230#32⟩

/-- The command's word meets its row, and its source line is well formed. -/
def Statement (i : Instr) : Prop := (rowOf i).selects (encode i) = true ∧ i.wellFormed = true

/-- A row that keeps OP and B selects every word with its OP and B. -/
theorem selects_low (op b : Byte) (h : Half) (r : OpcodeRow) (hm : r.mask = 0x0000FFFF#32)
    (hv : r.value = commandWord op b 0#16) : r.selects (commandWord op b h) = true := by
  simp only [OpcodeRow.selects, hm, hv, beq_iff_eq]
  exact (maskLowRow_iff _ op b).mpr ⟨fieldOp_commandWord _ _ _, fieldB_commandWord _ _ _⟩

theorem inByteRange_toNat (b : Byte) : inByteRange b.toNat = true := by
  have := b.isLt
  simp only [inByteRange, Bool.and_eq_true, decide_eq_true_eq]; omega

theorem inHalfRange_toNat (n : Half) : inHalfRange n.toNat = true := by
  have := n.isLt
  simp only [inHalfRange, Bool.and_eq_true, decide_eq_true_eq]; omega

theorem crcInit : Statement .crcInit := by
  unfold Statement; decide

theorem crcByte (b : Byte) : Statement (.crcByte b) := by
  refine ⟨?_, inByteRange_toNat b⟩
  simp only [OpcodeRow.selects, rowOf, encode, beq_iff_eq]
  exact (maskByteRow_iff _).mpr ⟨fieldH_commandWord _ _ _, fieldOp_commandWord _ _ _⟩

theorem enc : Statement .enc := by
  unfold Statement; decide

theorem dec (n : Half) : Statement (.dec n) :=
  ⟨selects_low 0x20#8 0x00#8 n _ rfl rfl, inHalfRange_toNat n⟩

theorem intPass (r : Half) : Statement (.intPass r) :=
  ⟨selects_low 0x30#8 0x00#8 r _ rfl rfl, inHalfRange_toNat r⟩

theorem intMask12 (r : Half) : Statement (.intMask12 r) :=
  ⟨selects_low 0x30#8 0x01#8 r _ rfl rfl, inHalfRange_toNat r⟩

theorem intBool1 (r : Half) : Statement (.intBool1 r) :=
  ⟨selects_low 0x30#8 0x02#8 r _ rfl rfl, inHalfRange_toNat r⟩

end Sys2Proof.Laws.RowSelectsEncoding
end

