-- ==== Sys2Proof/Tests/Slice0.lean ====
section
/-! SUPPORT. The model's own tests. Every expected value is the spec's: 95_test_vectors.md, a rule's worked example, or
a word written out from R72. Then the witnesses: for each statement with hypotheses, states and operands that meet them. -/

namespace Sys2Proof.Tests

open Sys2Proof.Machine

set_option maxRecDepth 20000

/-! Ill-formed source lines (R76): each range check refuses one, at its boundary. -/

theorem test_wf_crcByte_above : (AsmLine.crcByte 256).wellFormed = false := by decide
theorem test_wf_crcByte_below : (AsmLine.crcByte (-1)).wellFormed = false := by decide
theorem test_wf_dec_above : (AsmLine.dec 65536).wellFormed = false := by decide
theorem test_wf_dec_below : (AsmLine.dec (-1)).wellFormed = false := by decide
theorem test_wf_intPass_above : (AsmLine.intPass 65536).wellFormed = false := by decide
theorem test_wf_intMask12_above : (AsmLine.intMask12 65536).wellFormed = false := by decide
theorem test_wf_intBool1_above : (AsmLine.intBool1 65536).wellFormed = false := by decide
theorem test_wf_boundaries : (AsmLine.crcByte 255).wellFormed = true ∧ (AsmLine.dec 65535).wellFormed = true := by
  decide
theorem test_assemble_refuses : assemble (.crcByte 256) = none ∧ assemble (.dec 65536) = none := by decide

/-! Decoding words written out bit by bit from R72's encodings. -/

theorem test_decode_crcInit : decode 0b00000000000000000000000000000001#32 = .command .crcInit := by decide
theorem test_decode_crcByte : decode 0b00000000000000001010101100000010#32 = .command (.crcByte 0xAB#8) := by decide
theorem test_decode_enc : decode 0b00000000000000000000000000010000#32 = .command .enc := by decide
theorem test_decode_dec : decode 0b00000001000000100000000000100000#32 = .command (.dec 0x0102#16) := by decide
theorem test_decode_intPass : decode 0b00000000001010100000000000110000#32 = .command (.intPass 0x002A#16) := by decide
theorem test_decode_intMask12 : decode 0b11110001001000110000000100110000#32 = .command (.intMask12 0xF123#16) := by
  decide
theorem test_decode_intBool1 : decode 0b10000000000000010000001000110000#32 = .command (.intBool1 0x8001#16) := by
  decide
/-- V6. -/
theorem test_decode_illegal :
    decode 0x00000011#32 = .illegal (.unassignedOp 0x11#8) ∧ decode 0x00010010#32 = .illegal (.nonzeroReserved 0x10#8) ∧
    decode 0x00AB0002#32 = .illegal (.nonzeroReserved 0x02#8) ∧ decode 0x00000330#32 = .illegal (.unassignedMode 0x03#8) ∧
    decode 0xFFFFFFFF#32 = .illegal (.unassignedOp 0xFF#8) := by decide
theorem test_decodeTableWord : decodeTableWord 32 0x00010020 = some (.dec 1#16) ∧ decodeTableWord 32 0 = none := by decide

/-! Small states. -/

/-- A machine with this block and these pending actions. -/
def machine (b : Block) (inbox : List HostAction) : State :=
  { block := b, resetAsserted := false, inbox := inbox, replies := [] }

/-- A reset block that has received these bytes. -/
def received (s : List Byte) : Block :=
  { Block.reset with rxLen := BitVec.ofNat 9 s.length, rxbuf := Vector.ofFn fun i => s.getD i.val 0#8 }

/-- The block an answer leaves. -/
def blockOf : Result → Block
  | .next s => s.block
  | .fault _ => Block.reset
  | .refused _ => Block.reset

/-- The well-formed response of V1.2: one register, value 42. -/
def frame42 : List Byte := [0x01#8, 0x03#8, 0x02#8, 0x00#8, 0x2A#8, 0x39#8, 0x9B#8]

/-! One step of each command. -/

/-- R104's worked example. -/
theorem test_crcInit : let b := blockOf (exec .crcInit (machine { Block.reset with crcAcc := 0x1234#16, status := 3#3 } []))
    b.crcAcc = 0xFFFF#16 ∧ b.status = 1#3 := by decide
/-- V2.2, the last byte of the known vector. -/
theorem test_crcByte :
    (blockOf (exec (.crcByte 0x01#8) (machine { Block.reset with crcAcc := 0x1148#16 } []))).crcAcc = 0xF6D0#16 := by
  decide +kernel
/-- V4, the state reading's request. -/
theorem test_enc : (blockOf (exec .enc (machine { Block.reset with reqAddr := 0x01#8, reqStart := 0x1201#16 } []))).txbuf =
    #v[0x01#8, 0x03#8, 0x12#8, 0x01#8, 0x00#8, 0x01#8, 0xD0#8, 0xB2#8] := by decide +kernel
/-- V4, every operand at its largest: nothing is checked. -/
theorem test_enc_max : (blockOf (exec .enc (machine { Block.reset with
      reqAddr := 0xFF#8, reqFc := 0xFF#8, reqStart := 0xFFFF#16, reqCount := 0xFFFF#16 } []))).txbuf =
    #v[0xFF#8, 0xFF#8, 0xFF#8, 0xFF#8, 0xFF#8, 0xFF#8, 0x01#8, 0x94#8] := by decide +kernel
/-- V3.9: a count larger than the frame's; both words are big-endian. -/
theorem test_dec : let b := blockOf (exec (.dec 2#16) (machine (received frame42) []))
    b.status = 1#3 ∧ b.decCount = 2#7 ∧ b.regs[0] = 0x002A#16 ∧ b.regs[1] = 0x399B#16 ∧ b.regs[2] = 0#16 := by
  decide +kernel
/-- V3.7: the trailer's bytes swapped. -/
theorem test_dec_swapped : (blockOf (exec (.dec 1#16) (machine (received
      [0x01#8, 0x03#8, 0x02#8, 0x00#8, 0x2A#8, 0x9B#8, 0x39#8]) []))).status = 3#3 := by decide +kernel
/-- V5. -/
theorem test_intPass : let b := blockOf (exec (.intPass 0xFFFF#16) (machine Block.reset []))
    b.intValue = 0xFFFF#16 ∧ b.intKind = 0#1 := by decide
/-- V5. -/
theorem test_intMask12 : let b := blockOf (exec (.intMask12 0xF123#16) (machine Block.reset []))
    b.intValue = 0x0123#16 ∧ b.intKind = 0#1 := by decide
/-- V5: the mask comes before the mapping. -/
theorem test_intBool1 : let b := blockOf (exec (.intBool1 0xFFFE#16) (machine Block.reset []))
    b.intValue = 0#16 ∧ b.intKind = 1#1 := by decide
/-- V5. -/
theorem test_intBool1_away : let b := blockOf (exec (.intBool1 0x8001#16) (machine Block.reset []))
    b.intValue = 1#16 ∧ b.intKind = 1#1 := by decide
/-- V3.14: `3 + 2n` does not wrap at 16 bits. -/
theorem test_dec_no_wrap : decodeResponse [0x01#8] 0xFFFF#16 = .tooShort := by decide
/-- R152: an exception response with a correct CRC is accepted. -/
theorem test_dec_exception_response :
    decodeResponse [0x01#8, 0x83#8, 0x02#8, 0xC0#8, 0xF1#8] 1#16 = .ok [0xC0F1#16] := by decide +kernel
/-- V3.13. -/
theorem test_dec_zero : decodeResponse [0x01#8, 0x7E#8, 0x80#8] 0#16 = .ok [] ∧
    decodeResponse [0x01#8, 0x7E#8, 0x81#8] 0#16 = .crcMismatch := by decide +kernel

/-! The port and the step. -/

/-- V7: RX_LEN writes of 257, 256 and 0x00010005. -/
theorem test_rxLen : let w := fun v => (blockOf (perform (.write 0x008#9 v) (machine (received frame42) []))).rxLen
    w 257#32 = 7#9 ∧ w 256#32 = 256#9 ∧ w 0x00010005#32 = 5#9 := by decide +kernel
/-- V7: RXBUF[5]. -/
theorem test_rxbuf_write : let b := blockOf (perform (.write 0x105#9 0x1FF#32) (machine Block.reset []))
    b.rxbuf[5] = 0xFF#8 ∧ portRead 0x105#9 b = 0xFF#32 := by decide +kernel
/-- V7: writes to STATUS, REGS and a reserved index. -/
theorem test_ignored_writes : let w := fun idx => blockOf (perform (.write idx 7#32) (machine Block.reset []))
    w 0x001#9 = Block.reset ∧ w 0x080#9 = Block.reset ∧ w 0x020#9 = Block.reset := by decide +kernel
/-- V6, R203: an illegal word. -/
theorem test_illegal_step : step (machine Block.reset [.write 0x000#9 0x00010120#32]) =
    .next (machine { Block.reset with status := 4#3 } []) := rfl
/-- The map's ranges meet without a gap or an overlap (R51, R52). -/
theorem test_map_boundaries :
    slotOf 0x00B#9 = .intKind ∧ slotOf 0x00C#9 = .reserved ∧ slotOf 0x03F#9 = .reserved ∧
    slotOf 0x040#9 = .txbuf 0 ∧ slotOf 0x047#9 = .txbuf 7 ∧ slotOf 0x048#9 = .reserved ∧ slotOf 0x07F#9 = .reserved ∧
    slotOf 0x080#9 = .regs 0 ∧ slotOf 0x0FD#9 = .regs 125 ∧ slotOf 0x0FE#9 = .reserved ∧ slotOf 0x0FF#9 = .reserved ∧
    slotOf 0x100#9 = .rxbuf 0 ∧ slotOf 0x1FF#9 = .rxbuf 255 := by decide
theorem test_withFetchWord : step (State.reset.withFetchWord 32 0x00000010) = exec .enc State.reset := rfl

/-! Witnesses: states and operands that meet a statement's hypotheses together, clause by clause. -/

theorem witness_AssertedResetPutsListedValues :
    (machine (received frame42) [.assertReset]).inbox = .assertReset :: [] := rfl

/-- A machine held in reset. -/
def heldInReset (a : HostAction) : State :=
  { block := Block.reset, resetAsserted := true, inbox := [a], replies := [] }

theorem witness_AccessUnderResetHasNoEffect :
    (machine Block.reset [.assertReset]).inbox = .assertReset :: [] ∧
    ((heldInReset (.read 0x1FF#9)).resetAsserted = true ∧ (heldInReset (.read 0x1FF#9)).inbox = .read 0x1FF#9 :: []) ∧
    ((heldInReset (.write 0x000#9 1#32)).resetAsserted = true ∧
      (heldInReset (.write 0x000#9 1#32)).inbox = .write 0x000#9 1#32 :: []) := ⟨rfl, ⟨rfl, rfl⟩, ⟨rfl, rfl⟩⟩

theorem witness_IdleBlockWaits :
    (machine Block.reset []).inbox = [] ∧ (heldInReset .releaseReset).inbox = .releaseReset :: [] := ⟨rfl, rfl⟩

/-- A machine whose next action is a read, and one whose next action is a write, at any index. -/
theorem witness_PortReadFollowsMap (idx : Index) :
    (machine Block.reset [.read idx]).resetAsserted = false ∧ (machine Block.reset [.read idx]).inbox = .read idx :: [] :=
  ⟨rfl, rfl⟩

/-- Every clause's index exists, at both ends of its range. -/
theorem witness_PortReadFollowsMap_clauses :
    (0x000#9).toNat = 0x000 ∧ (0x001#9).toNat = 0x001 ∧ (0x002#9).toNat = 0x002 ∧ (0x003#9).toNat = 0x003 ∧
    (0x004#9).toNat = 0x004 ∧ (0x005#9).toNat = 0x005 ∧ (0x006#9).toNat = 0x006 ∧ (0x007#9).toNat = 0x007 ∧
    (0x008#9).toNat = 0x008 ∧ (0x009#9).toNat = 0x009 ∧ (0x00A#9).toNat = 0x00A ∧ (0x00B#9).toNat = 0x00B ∧
    (0x040#9).toNat = 0x040 + (0 : Fin 8).val ∧ (0x047#9).toNat = 0x040 + (7 : Fin 8).val ∧
    (0x080#9).toNat = 0x080 + (0 : Fin 126).val ∧ (0x0FD#9).toNat = 0x080 + (125 : Fin 126).val ∧
    (0x100#9).toNat = 0x100 + (0 : Fin 256).val ∧ (0x1FF#9).toNat = 0x100 + (255 : Fin 256).val ∧
    (0x00C ≤ (0x00C#9).toNat ∧ (0x03F#9).toNat ≤ 0x03F) ∧ (0x048 ≤ (0x048#9).toNat ∧ (0x07F#9).toNat ≤ 0x07F) ∧
    (0x0FE ≤ (0x0FE#9).toNat ∧ (0x0FF#9).toNat ≤ 0x0FF) := by decide

theorem witness_PortWriteFollowsMap (idx : Index) (v : Word) :
    (machine Block.reset [.write idx v]).resetAsserted = false ∧
    (machine Block.reset [.write idx v]).inbox = .write idx v :: [] := ⟨rfl, rfl⟩

/-- The two RX_LEN clauses meet between 256 and 257; the ignored indices end at 0x0FF, where RXBUF begins. -/
theorem witness_PortWriteFollowsMap_clauses :
    (0x008#9).toNat = 0x008 ∧ (256#32).toNat % 512 ≤ 256 ∧ 256 < (257#32).toNat % 512 ∧ (512#32).toNat % 512 ≤ 256 ∧
    (0x009 ≤ (0x0FF#9).toNat ∧ (0x0FF#9).toNat ≤ 0x0FF) ∧ (0x100#9).toNat = 0x100 + (0 : Fin 256).val := by decide

theorem witness_PortReadsDetermineBlock (idx : Index) : portRead idx Block.reset = portRead idx Block.reset := rfl

theorem witness_WrittenValueVisibleToNextRead :
    let s := machine Block.reset [.write 0x1FF#9 0xABCD1234#32, .read 0x1FF#9]
    s.resetAsserted = false ∧ keptBits (slotOf 0x1FF#9) = some 0xFF#32 ∧
      s.inbox = .write 0x1FF#9 0xABCD1234#32 :: .read 0x1FF#9 :: [] := by decide +kernel

theorem witness_WriteLeavesOtherIndices :
    (0x1FF#9 : Index) ≠ 0x000#9 ∧ (0x1FE#9 : Index) ≠ 0x1FF#9 ∧
      (machine Block.reset [.write 0x1FF#9 7#32]).inbox = .write 0x1FF#9 7#32 :: [] := by decide +kernel

theorem witness_OnlyCommandWritesAreNotIdempotent :
    (0x003#9 : Index) ≠ 0x000#9 ∧ perform (.write 0x003#9 0x1F7#32) (machine Block.reset []) =
      .next (machine { Block.reset with reqAddr := 0xF7#8 } []) := ⟨by decide, rfl⟩

theorem witness_EncodeOfDecode : decode 0xFFFF0020#32 = .command (.dec 0xFFFF#16) := by decide

theorem witness_OpcodeMapSelectsCommands :
    decode 0x0000FF02#32 = .command (.crcByte 0xFF#8) ∧ decode 0x00000020#32 = .command (.dec 0#16) ∧
    decode 0xFFFF0030#32 = .command (.intPass 0xFFFF#16) ∧ decode 0xFFFF0130#32 = .command (.intMask12 0xFFFF#16) ∧
    decode 0xFFFF0230#32 = .command (.intBool1 0xFFFF#16) ∧ (∃ r ∈ opcodeMap, r.selects 0x00000001#32 = true) := by decide

theorem witness_IllegalWordsByField :
    let s := machine Block.reset [.write 0x000#9 0x12340330#32]
    decode 0x12340330#32 = .illegal (.unassignedMode 0x03#8) ∧ s.resetAsserted = false ∧
      s.inbox = .write 0x000#9 0x12340330#32 :: [] := by decide +kernel

theorem witness_AssemblerExpandsToCommandWrites :
    (255 : Nat) ≤ 255 ∧ (65535 : Nat) ≤ 65535 ∧ ((-1 : Int) < 0 ∨ 255 < (-1 : Int)) ∧ ((256 : Int) < 0 ∨ 255 < (256 : Int)) ∧
      ((65536 : Int) < 0 ∨ 65535 < (65536 : Int)) := by decide

theorem witness_StepRunsDecodedCommand :
    let s := machine (received frame42) [.write 0x000#9 0x00010020#32]
    s.resetAsserted = false ∧ s.inbox = .write 0x000#9 0x00010020#32 :: [] ∧
      decode 0x00010020#32 = .command (.dec 1#16) ∧ decode 0x00010120#32 = .illegal (.nonzeroReserved 0x20#8) := by
  decide +kernel

theorem witness_IllegalCommandChangesOnlyStatus :
    let s := machine (received frame42) [.write 0x000#9 0x00010120#32]
    (∀ i, decode 0x00010120#32 ≠ .command i) ∧ s.resetAsserted = false ∧ s.inbox = .write 0x000#9 0x00010120#32 :: [] :=
  ⟨fun i h => absurd (h.symm.trans (show decode 0x00010120#32 = .illegal (.nonzeroReserved 0x20#8) by decide))
    (by intro e; cases e), rfl, rfl⟩

theorem witness_CrcInitStartsStream : (0x00000101#32).toNat % 256 = 0x01 ∧ (0x00000101#32) ≠ 0x00000001#32 := by decide

theorem witness_CrcByteFoldsByte : (0x00010002#32).toNat % 256 = 0x02 ∧ (0x00010002#32).toNat / 65536 ≠ 0 := by decide

theorem witness_EncBuildsRequestFrame : (0x80000010#32).toNat % 256 = 0x10 ∧ (0x80000010#32) ≠ 0x00000010#32 := by decide

/-- V3.4: four bytes against a bound of five, and five bytes that meet it. -/
theorem witness_DecTooShort :
    let s := machine (received (frame42.take 4)) []
    let s' := machine (received (frame42.take 5)) []
    (s.block.rxLen.toNat ≤ 256 ∧ s.block.rxLen.toNat < 3 + 2 * (1#16).toNat) ∧
      (s'.block.rxLen.toNat ≤ 256 ∧ 3 + 2 * (1#16).toNat ≤ s'.block.rxLen.toNat) := by decide +kernel

/-- V3.4: five bytes pass the length check and fail the CRC. -/
theorem witness_DecCrcMismatch :
    let s := machine (received (frame42.take 5)) []
    5 = s.block.rxLen.toNat ∧ 5 ≤ 256 ∧ 3 + 2 * (1#16).toNat ≤ 5 ∧
      (crc16 (s.block.rxbuf.toList.take (5 - 2))).toNat ≠
        (s.block.rxbuf.toList.getD (5 - 2) 0#8).toNat + 256 * (s.block.rxbuf.toList.getD (5 - 1) 0#8).toNat := by
  decide +kernel

/-- V3.9: seven bytes are exactly 3 + 2n for n = 2; n = 0 and n = 1 are below. -/
theorem witness_DecExtractsWords :
    let s := machine (received frame42) []
    7 = s.block.rxLen.toNat ∧ 7 ≤ 256 ∧ 3 + 2 * (2#16).toNat ≤ 7 ∧ 3 + 2 * (0#16).toNat ≤ 7 ∧
      (crc16 (s.block.rxbuf.toList.take (7 - 2))).toNat =
        (s.block.rxbuf.toList.getD (7 - 2) 0#8).toNat + 256 * (s.block.rxbuf.toList.getD (7 - 1) 0#8).toNat := by
  decide +kernel

theorem witness_CommandsWriteOnlyTheirFootprint :
    exec .crcInit State.reset = .next { State.reset with block := { Block.reset with status := 1#3 } } ∧
      writesSlot .crcInit (slotOf 0x040#9) = false ∧ writesSlot (.dec 1#16) (slotOf 0x0FE#9) = false := ⟨rfl, by decide⟩

theorem witness_CommandOutcomeCodes :
    exec .crcInit State.reset = .next { State.reset with block := { Block.reset with status := 1#3 } } := rfl

theorem witness_CrcStepByTable : ∃ table : Byte → Half, ∀ x, table x = crcStep 0x0000#16 x := ⟨_, fun _ => rfl⟩

theorem witness_CrcStepIsInvertible : crcStep 0x00AB#16 0xAB#8 = 0#16 ∧ crcStep 0x1234#16 0x05#8 = crcStep 0x1234#16 0x05#8 := by
  decide +kernel

theorem witness_CrcStreamEqualsCrc :
    let actions : List HostAction := [issue (.crcByte 0x01#8), .read 0x002#9, issue .enc, .write 0x000#9 0#32]
    let s := machine Block.reset (issue .crcInit :: (actions ++ []))
    let s' := machine Block.reset (actions ++ [])
    s.resetAsserted = false ∧ (∀ a ∈ actions, keepsStream a = true) ∧ s.inbox = issue .crcInit :: (actions ++ []) ∧
      s'.block = Block.reset ∧ s'.inbox = actions ++ [] := ⟨rfl, by decide +kernel, rfl, rfl, rfl⟩

theorem witness_RequestFramePassesCrcCheck : 3 + 2 * (2#16).toNat ≤ 8 ∧ 3 + 2 * (0#16).toNat ≤ 8 := by decide

theorem witness_OneRegisterRoundTrip :
    (received frame42).holds (let c := crc16 [0x01#8, 0x03#8, 0x02#8, hi8 42#16, lo8 42#16]
      [0x01#8, 0x03#8, 0x02#8, hi8 42#16, lo8 42#16, lo8 c, hi8 c]) := by
  unfold Block.holds; decide +kernel

/-- V3.2's two-register response; n at both ends of its range. -/
theorem witness_ResponseRoundTrip :
    (0#16).toNat ≤ [1#16, 2#16].length ∧ (2#16).toNat ≤ [1#16, 2#16].length ∧
    (received [0x01#8, 0x03#8, 0x04#8, 0x00#8, 0x01#8, 0x00#8, 0x02#8, 0x2A#8, 0x32#8]).holds
      (wellFormedResponse 0x01#8 0x03#8 0x04#8 [1#16, 2#16]) := by
  unfold Block.holds; decide +kernel

theorem witness_DecCapacity :
    (machine (received frame42) []).block.rxLen.toNat ≤ 256 ∧ 127 ≤ (127#16).toNat ∧
    (∃ t, exec (.dec 1#16) (machine (received frame42) []) = .next t ∧ t.block.status = 1#3) :=
  ⟨by decide +kernel, by decide, _, rfl, by decide +kernel⟩

theorem witness_TinyFramesAreTooShort : (machine (received [0x01#8, 0x02#8]) []).block.rxLen.toNat ≤ 2 := by decide +kernel

/-- Two states that agree on the frame and on nothing else. -/
theorem witness_DecIgnoresAllButTheFrame :
    let s := machine (received frame42) []
    let s' := machine { received (frame42 ++ [0xEE#8]) with rxLen := 7#9, crcAcc := 0#16, reqAddr := 9#8 } []
    s.block.rxLen = s'.block.rxLen ∧
      (∀ i : Fin 256, i.val < s.block.rxLen.toNat → s.block.rxbuf[i] = s'.block.rxbuf[i]) ∧ s.block ≠ s'.block := by
  decide +kernel

/-- The first and the last byte of the frame, the lowest and the highest bit. -/
theorem witness_SingleBitFlipIsDetected :
    let s := machine (received frame42) []
    s.block.rxLen.toNat ≤ 256 ∧ (0 : Fin 256).val < s.block.rxLen.toNat ∧ (6 : Fin 256).val < s.block.rxLen.toNat ∧
      ∃ t, exec (.dec 1#16) s = .next t ∧ t.block.status = 1#3 :=
  ⟨by decide +kernel, by decide +kernel, by decide +kernel, _, rfl, by decide +kernel⟩

theorem witness_TrailingZeroAccepted : (1#16).toNat ≤ [42#16].length ∧ (0#16).toNat ≤ [42#16].length := by decide

/-- V3.9 is a frame of 3 + 2n bytes, V3.12 one of 4 + 2n. -/
theorem witness_ShortFramesReadTrailerAsData :
    (1 ≤ (2#16).toNat ∧ decodeResponse frame42 2#16 = .ok [0x002A#16, 0x399B#16] ∧ frame42.length = 3 + 2 * (2#16).toNat) ∧
    (1 ≤ (1#16).toNat ∧ decodeResponse [0x01#8, 0x03#8, 0x02#8, 0x00#8, 0xF0#8, 0xB8#8] 1#16 = .ok [0x00F0#16] ∧
      [0x01#8, 0x03#8, 0x02#8, 0x00#8, 0xF0#8, 0xB8#8].length = 4 + 2 * (1#16).toNat) := by decide +kernel

/-- V1.2's frame, and a frame with the same data and the same CRC under another header: both match their trailer. -/
theorem witness_HeaderBytesAreNotChecked :
    let t : List Byte := [0x00#8, 0xC2#8, 0xC2#8, 0x00#8, 0x2A#8, 0x39#8, 0x9B#8]
    frame42.length = t.length ∧ frame42.drop 3 = t.drop 3 ∧
      crc16 (crcPart frame42) = crcTrailer frame42 ∧ crc16 (crcPart t) = crcTrailer t := by decide +kernel

theorem witness_DecCanBeRepeated : ∃ t, exec (.dec 2#16) (machine (received frame42) []) = .next t := ⟨_, rfl⟩

/-- A block that has built a request, decoded nothing and interpreted "away": none of the invariant's clauses is idle
but those of a failed decode and of no command. -/
def busyBlock : Block :=
  { received frame42 with
    status := 1#3, txLen := 8#4, txbuf := buildRequest 0x01#8 0x03#8 0x1101#16 1#16, intKind := 1#1, intValue := 1#16 }

theorem witness_StepKeepsInvariant :
    (machine busyBlock [issue (.dec 1#16)]).Inv ∧ ∃ t, step (machine busyBlock [issue (.dec 1#16)]) = .next t := by
  refine ⟨⟨?_, fun h => by cases h⟩, _, rfl⟩
  constructor
  · decide
  · exact .inr rfl
  · decide
  · decide
  · intro i _
    show (Vector.replicate 126 0#16)[i] = 0#16
    simp
  · decide
  · exact fun _ => .inr rfl
  · intro h; cases h
  · exact fun _ => ⟨_, _, _, _, rfl⟩
  · intro h; cases h

/-- A reading of one register answered with one word, and one of two answered with three. -/
theorem witness_ReadingEndToEnd :
    (machine busyBlock []).resetAsserted = false ∧
      ((ReadingSpec.mk .fanSpeed 0x1101#16 1#16 .pass).registerCount.toNat ≤ [0x002A#16].length ∧
        [0x002A#16].length ≤ 125) ∧
      ((ReadingSpec.mk .fanSpeed 0x1101#16 2#16 .pass).registerCount.toNat ≤ [0x002A#16, 1#16, 2#16].length ∧
        [0x002A#16, 1#16, 2#16].length ≤ 125) := by decide

/-- V3.4 again: four bytes are too short for one register, five and six fail the CRC. -/
theorem witness_FailedReadingRecords :
    (machine busyBlock []).resetAsserted = false ∧ (frame42.take 4).length < 3 + 2 * (1#16).toNat ∧
      3 + 2 * (1#16).toNat ≤ (frame42.take 5).length ∧ (frame42.take 5).length ≤ 256 ∧
      crc16 (crcPart (frame42.take 5)) ≠ crcTrailer (frame42.take 5) := by decide +kernel

theorem witness_ReadingsAreIsolated :
    (machine busyBlock []).resetAsserted = false ∧
      [((⟨.state, 0x1201#16, 1#16, .bool1⟩ : ReadingSpec), (⟨.ioError, 7⟩ : Exchange))][0]? =
        some (⟨.state, 0x1201#16, 1#16, .bool1⟩, ⟨.ioError, 7⟩) := ⟨rfl, rfl⟩

theorem witness_PollCycleOverReadingTable :
    (machine busyBlock []).resetAsserted = false ∧ (machine busyBlock []).block.reqFc = 0x03#8 := ⟨rfl, rfl⟩

end Sys2Proof.Tests
end

/-! PROOFS, family 10_state: every step keeps the invariant of the state (O48), and the port reads determine the block
(O8). -/

namespace Sys2Proof.Machine

/-! The codes of the outcomes (R24). -/

theorem StatusCode.code_toNat_le (c : StatusCode) : c.code.toNat ≤ 4 := by
  cases c <;> decide

theorem StatusCode.code_eq_zero_iff (c : StatusCode) : c.code = 0#3 ↔ c = .noCommand := by
  cases c <;> decide

/-- The codes 2 and 3 are those of a failed `dec` (R202). -/
theorem StatusCode.code_failed_iff (c : StatusCode) :
    c.code = 2#3 ∨ c.code = 3#3 ↔ c = .tooShort ∨ c = .crcMismatch := by
  cases c <;> decide

/-! The invariant without STATUS: what a command's working copy meets until `endCommand` writes STATUS. -/

/-- The part of `Block.Inv` that speaks of no STATUS code. -/
structure Block.DataInv (b : Block) : Prop where
  txLen_legal : b.txLen = 0#4 ∨ b.txLen = 8#4
  rxLen_legal : b.rxLen.toNat ≤ 256
  decCount_legal : b.decCount.toNat ≤ 126
  regs_tail : ∀ i : Fin 126, b.decCount.toNat ≤ i.val → b.regs[i] = 0#16
  state_value : b.intKind = 1#1 → b.intValue = 0#16 ∨ b.intValue = 1#16
  tx_empty : b.txLen = 0#4 → b.txbuf = Vector.replicate 8 0#8
  tx_frame : b.txLen = 8#4 → ∃ a f s n, b.txbuf = buildRequest a f s n

theorem Block.Inv.dataInv {b : Block} (h : b.Inv) : b.DataInv := { h with }

/-- Ending a command establishes the whole invariant: the code is not NONE, and a failing `dec` has cleared
DEC_COUNT (R146). -/
theorem Block.DataInv.inv_putStatus {b : Block} (h : b.DataInv) {c : StatusCode} (hrun : c ≠ .noCommand)
    (hfail : c = .tooShort ∨ c = .crcMismatch → b.decCount = 0#7) : (b.putStatus c).Inv :=
  { h with
    status_legal := c.code_toNat_le
    failed_decode := fun hc => hfail (c.code_failed_iff.mp hc)
    no_command := fun hc => absurd (c.code_eq_zero_iff.mp hc) hrun }

theorem Block.DataInv.putCrcAcc {b : Block} (h : b.DataInv) (v : Half) : (b.putCrcAcc v).DataInv := { h with }

theorem Block.DataInv.putTxFrame {b : Block} (h : b.DataInv) (a f : Byte) (s n : Half) :
    (b.putTxFrame (buildRequest a f s n)).DataInv :=
  { h with
    txLen_legal := .inr rfl
    tx_empty := fun h0 => absurd h0 (show Config.requestLen ≠ 0#4 by decide)
    tx_frame := fun _ => ⟨a, f, s, n, rfl⟩ }

theorem Block.DataInv.clearDecoded {b : Block} (h : b.DataInv) : b.clearDecoded.DataInv :=
  { h with
    decCount_legal := Nat.zero_le _
    regs_tail := fun i _ => by simp }

theorem Block.DataInv.putDecoded_clearDecoded {b : Block} (h : b.DataInv) {ws : List Half} {n : Half}
    (hlen : ws.length = n.toNat) (hn : n.toNat ≤ 126) : (b.clearDecoded.putDecoded ws n).DataInv :=
  { h with
    decCount_legal := (putDecoded_decCount_toNat _ ws hn).trans_le hn
    regs_tail := fun i hi => by
      rw [putDecoded_decCount_toNat _ ws hn] at hi
      exact (putDecoded_clear_get b ws n i.isLt).trans (if_neg (by omega)) }

/-- `int.bool1` keeps one bit of its operand (R174). -/
theorem and_mask1 (r : Half) : r &&& Config.mask1 = 0#16 ∨ r &&& Config.mask1 = 1#16 := by
  rw [show Config.mask1 = 1#16 from rfl, BitVec.and_one_eq_setWidth_ofBool_getLsbD]
  cases r.getLsbD 0
  · exact .inl rfl
  · exact .inr rfl

theorem Block.DataInv.putInterpreted {b : Block} (h : b.DataInv) (m : InterpMode) (r : Half) :
    (b.putInterpreted (interpret m r)).DataInv :=
  { h with
    state_value := by
      cases m with
      | bool1 => exact fun _ => and_mask1 r
      | pass | mask12 => exact fun hk => absurd hk (by simp [interpret, ValueKind.code]) }

/-! What each way of changing the block keeps. -/

theorem execDec_keepsInv {n : Half} {s t : State} (h : s.block.Inv) (he : execDec n s = .next t) : t.block.Inv := by
  rcases decodeResponse_cases (rxFrame s.block) n with ⟨-, hd⟩ | ⟨-, -, hd⟩ | ⟨hlen, -, hd⟩
  · rw [execDec_of_tooShort hd] at he
    cases he
    exact h.dataInv.clearDecoded.inv_putStatus (by simp) fun _ => rfl
  · rw [execDec_of_crcMismatch hd] at he
    cases he
    exact h.dataInv.clearDecoded.inv_putStatus (by simp) fun _ => rfl
  · rw [execDec_of_ok hd] at he
    cases he
    exact (h.dataInv.putDecoded_clearDecoded (extractWords_length _ _) (count_le_of_accepted hlen)).inv_putStatus
      (by simp) (by simp)

theorem endCommand_ok_keepsInv {b : Block} {s t : State} (h : b.DataInv) (he : endCommand .ok b s = .next t) :
    t.block.Inv := by
  rw [endCommand_next he]
  exact h.inv_putStatus (by simp) (by simp)

theorem exec_keepsInv {i : Instr} {s t : State} (h : s.block.Inv) (he : exec i s = .next t) : t.block.Inv := by
  have hd := h.dataInv
  cases i with
  | crcInit => exact endCommand_ok_keepsInv (hd.putCrcAcc _) he
  | crcByte b => exact endCommand_ok_keepsInv (hd.putCrcAcc _) he
  | enc => exact endCommand_ok_keepsInv (hd.putTxFrame _ _ _ _) he
  | dec n => exact execDec_keepsInv h he
  | intPass r => exact endCommand_ok_keepsInv (hd.putInterpreted .pass r) he
  | intMask12 r => exact endCommand_ok_keepsInv (hd.putInterpreted .mask12 r) he
  | intBool1 r => exact endCommand_ok_keepsInv (hd.putInterpreted .bool1 r) he

/-- The host's own writes touch nothing the invariant speaks of but RX_LEN, which takes legal lengths only (R31). -/
theorem HostWrite.keepsInv {v : Word} {a b : Block} {k : Slot} (hw : HostWrite v a k b) (h : a.Inv) : b.Inv := by
  cases hw with
  | rxLen =>
    by_cases hv : (v.setWidth 9).toNat ≤ 256
    · rw [Block.putRxLen_of_legal hv]
      exact { h with rxLen_legal := hv }
    · rwa [Block.putRxLen_of_illegal hv]
  | _ => exact { h with }

theorem Block.reset_inv : Block.reset.Inv where
  status_legal := by decide
  txLen_legal := .inl rfl
  rxLen_legal := by decide
  decCount_legal := by decide
  regs_tail i _ := by simp [Block.reset]
  failed_decode _ := rfl
  state_value hk := absurd hk (by decide)
  tx_empty _ := rfl
  tx_frame h8 := absurd h8 (by decide)
  no_command _ := ⟨rfl, rfl, rfl, rfl, rfl⟩

/-- With the reset input released, the state's invariant is the block's. -/
theorem State.inv_of_released {s : State} (h0 : s.resetAsserted = false) (hb : s.block.Inv) : s.Inv :=
  ⟨hb, fun h1 => Bool.noConfusion (h0.symm.trans h1)⟩

/-- Every action keeps the invariant of the state. Under reset accesses have no effect and `assertReset` puts the
reset block again, so the block is the reset block until `releaseReset` (R220, R221). -/
theorem ActionEffect.keepsInv {s t : State} {a : HostAction} (h : ActionEffect s a t) (hs : s.Inv) : t.Inv := by
  obtain ⟨hb, hr⟩ := hs
  cases h with
  | read | underReset => exact ⟨hb, hr⟩
  | command v i _ h0 _ he =>
    exact State.inv_of_released ((exec_next_environment he).1.trans h0) (exec_keepsInv hb he)
  | illegal v why h0 => exact State.inv_of_released h0 (hb.dataInv.inv_putStatus (by simp) (by simp))
  | hostWrite idx v b h0 _ hw => exact State.inv_of_released h0 (hw.keepsInv hb)
  | assertReset => exact ⟨Block.reset_inv, fun _ => rfl⟩
  | releaseReset => exact State.inv_of_released rfl hb

/-- Settles O48: a step waits, or performs one action, and every effect of an action keeps the invariant. -/
theorem stepKeepsInvariant : Obligations.StepKeepsInvariant := by
  intro s t hs hst
  cases hi : s.inbox with
  | nil =>
    rw [step_of_empty hi] at hst
    cases hst
    exact hs
  | cons a rest =>
    rw [step_of_action hi] at hst
    obtain ⟨t', ht', heffect⟩ := perform_effect a { s with inbox := rest }
    cases ht'.symm.trans hst
    exact heffect.keepsInv ⟨hs.block_inv, hs.under_reset⟩

/-! The port shows every field (R38, R53). -/

/-- Zero-extension to a port word loses nothing (R55). -/
theorem setWidth_word_inj {w : Nat} {x y : BitVec w} (h : x.setWidth 32 = y.setWidth 32) (hw : w ≤ 32 := by omega) :
    x = y := by
  simpa [BitVec.setWidth_setWidth_of_le _ hw] using congrArg (BitVec.setWidth w) h

/-- Settles O8: each field of R38 has a slot of the map, and a slot's read determines the field. -/
theorem portReadsDetermineBlock : Obligations.PortReadsDetermineBlock := by
  intro a b h
  have hslot (k : Slot) : readSlot a k = readSlot b k := by
    rw [← portRead_indexOf, ← portRead_indexOf, h]
  have htx : a.txbuf = b.txbuf := Vector.ext fun i hi => setWidth_word_inj (hslot (.txbuf ⟨i, hi⟩))
  have hregs : a.regs = b.regs := Vector.ext fun i hi => setWidth_word_inj (hslot (.regs ⟨i, hi⟩))
  have hrx : a.rxbuf = b.rxbuf := Vector.ext fun i hi => setWidth_word_inj (hslot (.rxbuf ⟨i, hi⟩))
  cases a
  cases b
  simp only [Block.mk.injEq]
  exact ⟨setWidth_word_inj (hslot .status), setWidth_word_inj (hslot .crcAcc), setWidth_word_inj (hslot .reqAddr),
    setWidth_word_inj (hslot .reqFc), setWidth_word_inj (hslot .reqStart), setWidth_word_inj (hslot .reqCount),
    setWidth_word_inj (hslot .txLen), setWidth_word_inj (hslot .rxLen), setWidth_word_inj (hslot .decCount),
    setWidth_word_inj (hslot .intValue), setWidth_word_inj (hslot .intKind), htx, hregs, hrx⟩

end Sys2Proof.Machine

/-! PROOFS, family 20_memory: the host port's reads and writes (O6, O7, O9, O10, O11), the execution of a command word
(O18, O21), the footprints of the commands (O29), and the agent's actions as steps (O50). -/

namespace Sys2Proof

/-- The decoder reads every command back from its word (R72, R74). -/
theorem decode_encode (i : Instr) : decode (encode i) = .command i := by
  rw [decode_by_fields]
  cases i <;> simp [encode]

end Sys2Proof

namespace Sys2Proof.Machine

/-! Indices and slots (R51). -/

theorem toNat_indexOf_txbuf (i : Fin 8) : (indexOf (.txbuf i)).toNat = 0x040 + i.val := by
  simp only [indexOf, BitVec.toNat_ofNat]
  omega

theorem toNat_indexOf_regs (i : Fin 126) : (indexOf (.regs i)).toNat = 0x080 + i.val := by
  simp only [indexOf, BitVec.toNat_ofNat]
  omega

theorem toNat_indexOf_rxbuf (i : Fin 256) : (indexOf (.rxbuf i)).toNat = 0x100 + i.val := by
  simp only [indexOf, BitVec.toNat_ofNat]
  omega

theorem slotOf_of_toNat {idx : Index} {k : Slot} (h : idx.toNat = (indexOf k).toNat) : slotOf idx = k := by
  rw [BitVec.eq_of_toNat_eq h, slotOf_indexOf]

/-- Only the reserved slot stands at more than one index. -/
theorem slotOf_inj {i j : Index} (h : slotOf i = slotOf j) (hr : slotOf i ≠ .reserved) : i = j := by
  rw [← indexOf_slotOf i hr, h, indexOf_slotOf j (h ▸ hr)]

/-! Reading (R53). -/

/-- A slot that shows a field, zero-extended, reads as the field's number (R55). -/
theorem portRead_field {b : Block} {idx : Index} {w : Nat} (k : Slot) (x : BitVec w) (h : idx.toNat = (indexOf k).toNat)
    (hx : readSlot b k = x.setWidth 32 := by rfl) (hw : w ≤ 32 := by omega) : (portRead idx b).toNat = x.toNat := by
  rw [portRead, slotOf_of_toNat h, hx, BitVec.toNat_setWidth_of_le hw]

theorem step_read {s : State} {idx : Index} {rest : List HostAction} (h0 : s.resetAsserted = false)
    (hi : s.inbox = .read idx :: rest) :
    step s = .next { s with inbox := rest, replies := s.replies ++ [portRead idx s.block] } := by
  rw [step_of_action hi, perform_read, readReply_eq (s := { s with inbox := rest }) h0]
  rfl

/-- Settles O6: a read answers the slot of its index, and each slot of the map shows its field. -/
theorem portReadFollowsMap : Obligations.PortReadFollowsMap := by
  intro s idx rest h0 hi
  refine ⟨portRead idx s.block, step_read h0 hi, portRead_field .cmd 0#32, portRead_field .status s.block.status,
    portRead_field .crcAcc s.block.crcAcc, portRead_field .reqAddr s.block.reqAddr, portRead_field .reqFc s.block.reqFc,
    portRead_field .reqStart s.block.reqStart, portRead_field .reqCount s.block.reqCount,
    portRead_field .txLen s.block.txLen, portRead_field .rxLen s.block.rxLen, portRead_field .decCount s.block.decCount,
    portRead_field .intValue s.block.intValue, portRead_field .intKind s.block.intKind, ?_, ?_, ?_, ?_⟩
  · exact fun i h => portRead_field (.txbuf i) s.block.txbuf[i] (h.trans (toNat_indexOf_txbuf i).symm)
  · exact fun i h => portRead_field (.regs i) s.block.regs[i] (h.trans (toNat_indexOf_regs i).symm)
  · exact fun i h => portRead_field (.rxbuf i) s.block.rxbuf[i] (h.trans (toNat_indexOf_rxbuf i).symm)
  · intro h
    rw [portRead, (slotOf_reserved_iff idx).mpr h]
    rfl

/-! Writing (R54). -/

theorem step_write {s : State} {idx : Index} {v : Word} {rest : List HostAction} (h0 : s.resetAsserted = false)
    (hi : s.inbox = .write idx v :: rest) : step s = writeSlot v { s with inbox := rest } (slotOf idx) :=
  (step_of_action hi).trans (perform_write (s := { s with inbox := rest }) h0 idx v)

/-- The slots whose writes are ignored: the read-only ones and the reserved one (R54). -/
def ignoresWrites : Slot → Bool
  | .status | .crcAcc | .txLen | .decCount | .intValue | .intKind | .txbuf _ | .regs _ | .reserved => true
  | _ => false

theorem writeSlot_of_ignores {k : Slot} (h : ignoresWrites k = true) (v : Word) (s : State) :
    writeSlot v s k = .next s := by
  cases k with
  | cmd | reqAddr | reqFc | reqStart | reqCount | rxLen | rxbuf => exact nomatch h
  | _ => rfl

/-- The indices of the slots that ignore a write (R51, R54). -/
theorem ignoresWrites_slotOf {idx : Index} (h : idx.toNat = 0x001 ∨ idx.toNat = 0x002 ∨ idx.toNat = 0x007 ∨
    0x009 ≤ idx.toNat ∧ idx.toNat ≤ 0x0FF) : ignoresWrites (slotOf idx) = true := by
  revert idx
  decide +kernel

/-- Settles O7: a write goes to the slot of its index, which takes the word's low bits, ignores it, or executes it. -/
theorem portWriteFollowsMap : Obligations.PortWriteFollowsMap := by
  intro s idx v rest h0 hi
  have hat (k : Slot) (h : idx.toNat = (indexOf k).toNat) : step s = writeSlot v { s with inbox := rest } k := by
    rw [step_write h0 hi, slotOf_of_toNat h]
  have hlen : (v.setWidth 9).toNat = v.toNat % 512 := BitVec.toNat_setWidth ..
  simp only [BitVec.ofNat_toNat]
  refine ⟨hat .cmd, hat .reqAddr, hat .reqFc, hat .reqStart, hat .reqCount, fun h hlegal => ?_, fun h hlong => ?_,
    fun i h => hat (.rxbuf i) (h.trans (toNat_indexOf_rxbuf i).symm), fun h => ?_⟩
  · rw [hat .rxLen h, writeSlot, Block.putRxLen_of_legal (by omega)]
    rfl
  · rw [hat .rxLen h, writeSlot, Block.putRxLen_of_illegal (by omega)]
    rfl
  · rw [step_write h0 hi, writeSlot_of_ignores (ignoresWrites_slotOf h)]

/-- The low bits of a word, zero-extended, are the word under the mask of as many ones. -/
theorem setWidth_setWidth_eq_and (v : Word) (n : Nat) :
    (v.setWidth n).setWidth 32 = v &&& BitVec.ofNat 32 (2 ^ n - 1) := by
  apply BitVec.eq_of_getLsbD_eq
  intro i hi
  simp only [BitVec.getLsbD_setWidth, BitVec.getLsbD_and, BitVec.getLsbD_ofNat, Nat.testBit_two_pow_sub_one, hi,
    decide_true, Bool.true_and, Bool.and_comm]

/-- What a read-write slot reads after a write: the bits of the word it keeps (R55). -/
theorem writeSlot_keptBits {k : Slot} {kept : Word} (h : keptBits k = some kept) (v : Word) (s : State) :
    ∃ b, writeSlot v s k = .next { s with block := b } ∧ readSlot b k = v &&& kept := by
  cases k with
  | reqAddr | reqFc => cases h; exact ⟨_, rfl, setWidth_setWidth_eq_and v 8⟩
  | reqStart | reqCount => cases h; exact ⟨_, rfl, setWidth_setWidth_eq_and v 16⟩
  | rxbuf i =>
    cases h
    refine ⟨_, rfl, ?_⟩
    simp only [readSlot, Block.putRxByte_rxbuf, Fin.getElem_fin, Vector.getElem_set_self]
    exact setWidth_setWidth_eq_and v 8
  | _ => exact nomatch h

/-- Settles O9: the write leaves the slot showing the kept bits, and the read answers what the slot shows. -/
theorem writtenValueVisibleToNextRead : Obligations.WrittenValueVisibleToNextRead := by
  intro s idx v kept rest h0 hk hi
  obtain ⟨b, hwrite, hread⟩ := writeSlot_keptBits hk v { s with inbox := .read idx :: rest }
  have hstep2 := step_read (s := { s with block := b, inbox := .read idx :: rest }) h0 rfl
  refine ⟨_, (core_run_succ ((step_write h0 hi).trans hwrite) 1).trans (core_run_succ hstep2 0), rfl, ?_⟩
  exact congrArg (s.replies ++ [·]) hread

/-- A host write changes what its own slot reads, and no other (R54). -/
theorem HostWrite.readSlot_of_ne {v : Word} {a b : Block} {k j : Slot} (h : HostWrite v a k b) (hj : j ≠ k) :
    readSlot b j = readSlot a j := by
  cases h with
  | ignored => rfl
  | rxbuf i =>
    cases j with
    | rxbuf j =>
      have hij : i.val ≠ j.val := fun e => hj (congrArg Slot.rxbuf (Fin.ext e.symm))
      simp [readSlot, Vector.getElem_set_ne _ _ hij]
    | _ => rfl
  | _ => cases j <;> simp [readSlot] at hj ⊢

/-- Settles O10: the slot of another index is another slot, or the reserved one, which always reads 0. -/
theorem writeLeavesOtherIndices : Obligations.WriteLeavesOtherIndices := by
  intro s idx other v rest hcmd hother hi
  obtain ⟨t, ht, heffect⟩ := perform_effect (.write idx v) { s with inbox := rest }
  refine ⟨t, (step_of_action hi).trans ht, ?_⟩
  cases heffect with
  | underReset => rfl
  | command | illegal => exact absurd rfl hcmd
  | hostWrite _ _ b _ _ hw =>
    by_cases hr : slotOf other = .reserved
    · rw [portRead, portRead, hr]
      rfl
    · exact hw.readSlot_of_ne fun h => hother (slotOf_inj h hr)

theorem Block.putRxLen_putRxLen (v : BitVec 9) (b : Block) : (b.putRxLen v).putRxLen v = b.putRxLen v := by
  by_cases h : v.toNat ≤ 256
  · simp only [Block.putRxLen_of_legal h]
  · simp only [Block.putRxLen_of_illegal h]

theorem Block.putRxByte_putRxByte (i : Fin 256) (v : Byte) (b : Block) :
    (b.putRxByte i v).putRxByte i v = b.putRxByte i v := by
  simp [Block.putRxByte]

/-- A write to any slot but CMD, done again, changes nothing more (R59). -/
theorem writeSlot_idempotent {v : Word} {s t : State} {k : Slot} (hk : k ≠ .cmd) (h : writeSlot v s k = .next t) :
    writeSlot v t k = .next t := by
  cases k with
  | cmd => exact absurd rfl hk
  | rxLen =>
    cases h
    exact congrArg (setBlock · s) (s.block.putRxLen_putRxLen _)
  | rxbuf i =>
    cases h
    exact congrArg (setBlock · s) (s.block.putRxByte_putRxByte i _)
  | _ => cases h; rfl

theorem exec_crcByte (b : Byte) (s : State) :
    exec (.crcByte b) s = .next { s with block := (s.block.putCrcAcc (crcStep s.block.crcAcc b)).putStatus .ok } := rfl

/-- Settles O11: a slot's write done twice is the write done once; for `crc.byte`, byte 0x01 from reset tells. -/
theorem onlyCommandWritesAreNotIdempotent : Obligations.OnlyCommandWritesAreNotIdempotent := by
  constructor
  · intro s t idx v hcmd h
    by_cases hr : s.resetAsserted = true
    · rw [perform_write_under_reset hr] at h
      cases h
      exact perform_write_under_reset hr idx v
    · have h0 : s.resetAsserted = false := by simpa using hr
      have hk : slotOf idx ≠ .cmd := fun e => hcmd (slotOf_eq_cmd e)
      rw [perform_write h0] at h
      obtain ⟨b, -, hb⟩ := writeSlot_cases v s (slotOf idx) hk
      cases hb.symm.trans h
      exact (perform_write (s := { s with block := b }) h0 idx v).trans (writeSlot_idempotent hk hb)
  · have hissue {s : State} (h0 : s.resetAsserted = false) :=
      (perform_issue h0 (decode_encode (.crcByte 0x01#8))).trans (exec_crcByte 0x01#8 s)
    exact ⟨State.reset, _, _, 0x01#8, hissue rfl, hissue rfl, by decide⟩

/-! A command word written to CMD (R56). -/

theorem step_cmd {s : State} {v : Word} {rest : List HostAction} (h0 : s.resetAsserted = false)
    (hi : s.inbox = .write 0x000#9 v :: rest) : step s = execute v { s with inbox := rest } :=
  (step_of_action hi).trans (perform_cmd (s := { s with inbox := rest }) h0 v)

/-- Settles O18: the step executes the word, by what it decodes to. -/
theorem stepRunsDecodedCommand : Obligations.StepRunsDecodedCommand := by
  intro s v rest h0 hi
  rw [step_cmd h0 hi]
  exact ⟨fun i hd => execute_of_command hd _, fun why hd => ⟨_, execute_of_illegal hd _, rfl, rfl⟩⟩

/-- Settles O21: the placed word is the command's own, so the next step executes the command it decodes to. -/
theorem fetchWordRunsItsCommand : Obligations.FetchWordRunsItsCommand := by
  intro s i
  constructor
  · have hi := withFetchWord_inbox s 32 (encode i).toNat
    rw [tableWord_toNat] at hi
    exact (step_cmd rfl hi).trans (execute_of_command (decode_encode i) _)
  · rw [decodeTableWord, tableWord_toNat, decode_encode]

/-! The footprints of the commands (R61): what each update of the block leaves to read, and so each command. -/

theorem readSlot_putStatus {k : Slot} (h : k ≠ .status) (c : StatusCode) (b : Block) :
    readSlot (b.putStatus c) k = readSlot b k := by
  cases k with
  | status => exact absurd rfl h
  | _ => rfl

theorem readSlot_putCrcAcc {k : Slot} (h : k ≠ .crcAcc) (v : Half) (b : Block) :
    readSlot (b.putCrcAcc v) k = readSlot b k := by
  cases k with
  | crcAcc => exact absurd rfl h
  | _ => rfl

theorem readSlot_putTxFrame {k : Slot} (hbuf : ∀ i, k ≠ .txbuf i) (hlen : k ≠ .txLen) (f : Vector Byte 8)
    (b : Block) : readSlot (b.putTxFrame f) k = readSlot b k := by
  cases k with
  | txbuf i => exact absurd rfl (hbuf i)
  | txLen => exact absurd rfl hlen
  | _ => rfl

theorem readSlot_clearDecoded {k : Slot} (hregs : ∀ i, k ≠ .regs i) (hcount : k ≠ .decCount) (b : Block) :
    readSlot b.clearDecoded k = readSlot b k := by
  cases k with
  | regs i => exact absurd rfl (hregs i)
  | decCount => exact absurd rfl hcount
  | _ => rfl

theorem readSlot_putDecoded {k : Slot} (hregs : ∀ i, k ≠ .regs i) (hcount : k ≠ .decCount) (ws : List Half)
    (n : Half) (b : Block) : readSlot (b.putDecoded ws n) k = readSlot b k := by
  cases k with
  | regs i => exact absurd rfl (hregs i)
  | decCount => exact absurd rfl hcount
  | _ => rfl

theorem readSlot_putInterpreted {k : Slot} (hvalue : k ≠ .intValue) (hkind : k ≠ .intKind) (r : ValueKind × Half)
    (b : Block) : readSlot (b.putInterpreted r) k = readSlot b k := by
  cases k with
  | intValue => exact absurd rfl hvalue
  | intKind => exact absurd rfl hkind
  | _ => rfl

/-- A slot outside a footprint is none of the footprint's slots. -/
theorem ne_of_not_writesSlot {i : Instr} {k j : Slot} (hk : writesSlot i k = false) (hj : writesSlot i j = true) :
    k ≠ j := by
  rintro rfl
  exact Bool.noConfusion (hk.symm.trans hj)

/-- Ending a command leaves a slot outside its footprint as the working copy shows it: every footprint has STATUS. -/
theorem endCommand_readSlot {i : Instr} {c : StatusCode} {b : Block} {s t : State} {k : Slot}
    (h : endCommand c b s = .next t) (hk : writesSlot i k = false) : readSlot t.block k = readSlot b k := by
  have hstatus : writesSlot i .status = true := by cases i <;> rfl
  rw [endCommand_next h]
  exact readSlot_putStatus (ne_of_not_writesSlot hk hstatus) c b

theorem execDec_readSlot {n : Half} {s t : State} {k : Slot} (h : execDec n s = .next t)
    (hk : writesSlot (.dec n) k = false) : readSlot t.block k = readSlot s.block k := by
  have hregs (i : Fin 126) : k ≠ .regs i := ne_of_not_writesSlot hk rfl
  have hcount : k ≠ .decCount := ne_of_not_writesSlot hk rfl
  have hclear := readSlot_clearDecoded hregs hcount s.block
  unfold execDec at h
  split at h
  · exact (endCommand_readSlot h hk).trans hclear
  · exact (endCommand_readSlot h hk).trans hclear
  · exact (endCommand_readSlot h hk).trans ((readSlot_putDecoded hregs hcount _ n _).trans hclear)

/-- A command leaves every slot outside its footprint as it reads (R61). -/
theorem exec_readSlot {i : Instr} {s t : State} {k : Slot} (h : exec i s = .next t) (hk : writesSlot i k = false) :
    readSlot t.block k = readSlot s.block k := by
  have hne {j : Slot} (hj : writesSlot i j = true) : k ≠ j := ne_of_not_writesSlot hk hj
  cases i with
  | crcInit | crcByte => exact (endCommand_readSlot h hk).trans (readSlot_putCrcAcc (hne rfl) _ _)
  | enc => exact (endCommand_readSlot h hk).trans (readSlot_putTxFrame (fun _ => hne rfl) (hne rfl) _ _)
  | dec n => exact execDec_readSlot h hk
  | intPass | intMask12 | intBool1 =>
    exact (endCommand_readSlot h hk).trans (readSlot_putInterpreted (hne rfl) (hne rfl) _ _)

/-- Settles O29: an index reads as its slot, and a command leaves the slots outside its footprint. -/
theorem commandsWriteOnlyTheirFootprint : Obligations.CommandsWriteOnlyTheirFootprint :=
  fun _ _ _ h => ⟨fun _ hk => exec_readSlot h hk, exec_next_environment h⟩

/-! The agent (R62, R236). -/

/-- Settles O50, by induction on the actions: a step performs the first of them and leaves the others pending. -/
theorem agentActionsAreSteps : Obligations.AgentActionsAreSteps := by
  intro actions rest s
  induction actions generalizing s with
  | nil => exact ⟨s, rfl, rfl⟩
  | cons a actions ih =>
    obtain ⟨u, hu, -⟩ := perform_effect a s
    obtain ⟨t, hall, hrun⟩ := ih u
    have hstep := step_of_perform hu (actions ++ rest)
    exact ⟨t, (performAll_cons hu actions).trans hall, (core_run_succ hstep _).trans hrun⟩

end Sys2Proof.Machine

/-! PROOFS, family 30_encoding: the decoder and the encoder undo each other (O12, O13), the opcode map and the illegal
words (O14, O15, O16), the assembler (O17), and the response frame (O39, O46). -/

namespace Sys2Proof

/-! Decoding and encoding (R72, R74). -/

/-- Settles O12: every command's fields pass its own row's test and no earlier one's. -/
theorem decodeOfEncode : Obligations.DecodeOfEncode := decode_encode

/-- A row fixes every field of a word that is not its command's operand, so the command's word is the word. -/
theorem encode_of_decode {v : Word} {i : Instr} (h : decode v = .command i) : encode i = v := by
  rw [decode_by_fields] at h
  split_ifs at h with hrow hrow hrow hrow hrow hrow hrow
  all_goals
    cases h
    rw [encode, eq_comm, eq_commandWord_iff]
    simp [hrow]

/-- Settles O13: the decoder's tests fix the whole word but the operand it reads. -/
theorem encodeOfDecode : Obligations.EncodeOfDecode := fun _ _ h => encode_of_decode h

theorem decode_eq_command_iff (v : Word) (i : Instr) : decode v = .command i ↔ v = encode i :=
  ⟨fun h => (encode_of_decode h).symm, fun h => h ▸ decode_encode i⟩

/-! The rows of the opcode map (R72). -/

/-- The words with given OP and B are those a row that keeps OP and B selects. -/
theorem exists_eq_commandWord_iff (v : Word) (op b : Byte) :
    (∃ h, v = commandWord op b h) ↔ v &&& 0x0000FFFF#32 = commandWord op b 0#16 := by
  rw [maskLowRow_iff]
  simp [eq_commandWord_iff]

/-- The mask of a row that fixes every bit keeps the whole word. -/
theorem maskAll_eq (v : Word) : v &&& 0xFFFFFFFF#32 = v := BitVec.and_allOnes

theorem decode_crcInit_iff (v : Word) : decode v = .command .crcInit ↔ v &&& 0xFFFFFFFF#32 = 0x00000001#32 := by
  rw [decode_eq_command_iff, maskAll_eq]
  rfl

theorem decode_crcByte_iff (v : Word) :
    (∃ b, decode v = .command (.crcByte b)) ↔ v &&& 0xFFFF00FF#32 = 0x00000002#32 := by
  simp [decode_eq_command_iff, encode, eq_commandWord_iff, maskByteRow_iff, and_comm]

theorem decode_enc_iff (v : Word) : decode v = .command .enc ↔ v &&& 0xFFFFFFFF#32 = 0x00000010#32 := by
  rw [decode_eq_command_iff, maskAll_eq]
  rfl

theorem decode_dec_iff (v : Word) :
    (∃ n, decode v = .command (.dec n)) ↔ v &&& 0x0000FFFF#32 = 0x00000020#32 := by
  simp only [decode_eq_command_iff]
  exact exists_eq_commandWord_iff v 0x20#8 0x00#8

theorem decode_intPass_iff (v : Word) :
    (∃ r, decode v = .command (.intPass r)) ↔ v &&& 0x0000FFFF#32 = 0x00000030#32 := by
  simp only [decode_eq_command_iff]
  exact exists_eq_commandWord_iff v 0x30#8 0x00#8

theorem decode_intMask12_iff (v : Word) :
    (∃ r, decode v = .command (.intMask12 r)) ↔ v &&& 0x0000FFFF#32 = 0x00000130#32 := by
  simp only [decode_eq_command_iff]
  exact exists_eq_commandWord_iff v 0x30#8 0x01#8

theorem decode_intBool1_iff (v : Word) :
    (∃ r, decode v = .command (.intBool1 r)) ↔ v &&& 0x0000FFFF#32 = 0x00000230#32 := by
  simp only [decode_eq_command_iff]
  exact exists_eq_commandWord_iff v 0x30#8 0x02#8

theorem fieldB_of_decode {v : Word} {b : Byte} (h : decode v = .command (.crcByte b)) : fieldB v = b := by
  rw [← encode_of_decode h]
  exact fieldB_commandWord _ _ _

/-- The operand of every command that has a 16-bit one is the word's H (R71). -/
theorem fieldH_of_decode {v : Word} {n : Half} (h : decode v = .command (.dec n) ∨ decode v = .command (.intPass n) ∨
    decode v = .command (.intMask12 n) ∨ decode v = .command (.intBool1 n)) : fieldH v = n := by
  rcases h with h | h | h | h <;> rw [← encode_of_decode h] <;> exact fieldH_commandWord _ _ _

/-- Two rows that select one word agree on the bits both of them test. -/
theorem OpcodeRow.agree_of_selects {r q : OpcodeRow} {v : Word} (hr : r.selects v = true) (hq : q.selects v = true) :
    r.value &&& q.mask = q.value &&& r.mask := by
  simp only [OpcodeRow.selects, beq_iff_eq] at hr hq
  rw [← hr, ← hq]
  ac_rfl

/-- No two rows of the map agree on the bits both of them test. -/
theorem opcodeMap_disagree : ∀ j k : Fin opcodeMap.length,
    opcodeMap[j].value &&& opcodeMap[k].mask = opcodeMap[k].value &&& opcodeMap[j].mask → j = k := by decide

/-- A word is illegal when no row of the map selects it. -/
theorem decode_illegal_iff_rows (v : Word) :
    (∃ why, decode v = .illegal why) ↔ ∀ r ∈ opcodeMap, r.selects v = false := by
  simp only [opcodeMap, OpcodeRow.selects, List.forall_mem_cons, beq_eq_false_iff_ne, ne_eq, ← decode_crcInit_iff,
    ← decode_crcByte_iff, ← decode_enc_iff, ← decode_dec_iff, ← decode_intPass_iff, ← decode_intMask12_iff,
    ← decode_intBool1_iff]
  cases decode v with
  | illegal why => simp
  | command i => cases i <;> simp

/-- Settles O14: each row's test is its command's fixed fields, and two rows differ in a bit both test. -/
theorem opcodeMapSelectsCommands : Obligations.OpcodeMapSelectsCommands := by
  refine ⟨decode_crcInit_iff, decode_crcByte_iff, decode_enc_iff, decode_dec_iff, decode_intPass_iff,
    decode_intMask12_iff, decode_intBool1_iff, fun v b h => ?_, fun v n h => ?_,
    fun j k v hj hk => opcodeMap_disagree j k (OpcodeRow.agree_of_selects hj hk), decode_illegal_iff_rows⟩
  · rw [← fieldB_of_decode h]
    exact fieldB_toNat v
  · rw [← fieldH_of_decode h]
    exact fieldH_toNat v

/-! Illegal words (R75). -/

/-- A word is illegal when it fails every row's test on OP, B and H. -/
theorem decode_illegal_iff_fields (v : Word) : (∃ why, decode v = .illegal why) ↔
    ¬(fieldOp v = 0x01#8 ∧ fieldB v = 0#8 ∧ fieldH v = 0#16) ∧ ¬(fieldH v = 0#16 ∧ fieldOp v = 0x02#8) ∧
    ¬(fieldOp v = 0x10#8 ∧ fieldB v = 0#8 ∧ fieldH v = 0#16) ∧ ¬(fieldOp v = 0x20#8 ∧ fieldB v = 0x00#8) ∧
    ¬(fieldOp v = 0x30#8 ∧ fieldB v = 0x00#8) ∧ ¬(fieldOp v = 0x30#8 ∧ fieldB v = 0x01#8) ∧
    ¬(fieldOp v = 0x30#8 ∧ fieldB v = 0x02#8) := by
  rw [decode_by_fields]
  split_ifs <;> simp [*]

/-- Settles O15: the rows' tests as numbers; the step executes the illegal word, which only writes STATUS. -/
theorem illegalWordsByField : Obligations.IllegalWordsByField := by
  constructor
  · intro v
    rw [decode_illegal_iff_fields]
    simp only [← BitVec.toNat_inj, fieldOp_toNat, fieldB_toNat, fieldH_toNat, BitVec.toNat_ofNat, Nat.reducePow,
      Nat.reduceMod]
    omega
  · intro s v why rest hd h0 hi
    exact (Machine.step_cmd h0 hi).trans (Machine.execute_of_illegal hd _)

/-- Settles O16, by decoding the twelve words. -/
theorem specWordsDecode : Obligations.SpecWordsDecode := by
  unfold Obligations.SpecWordsDecode
  decide

/-! The assembler (R76). -/

/-- Every command's operands are in the ranges the assembler takes. -/
theorem wellFormed_instr (i : Instr) : i.wellFormed = true := by
  cases i with
  | crcInit | enc => rfl
  | crcByte b => exact Laws.RowSelectsEncoding.inByteRange_toNat b
  | dec n | intPass n | intMask12 n | intBool1 n => exact Laws.RowSelectsEncoding.inHalfRange_toNat n

/-- The assembler reads every command back from its source line. -/
theorem assemble_toAsm (i : Instr) : assemble i.toAsm = some i := by
  have h : i.toAsm.wellFormed = true := wellFormed_instr i
  unfold assemble
  rw [if_pos h]
  cases i <;> simp [Instr.toAsm]

theorem assemble_of_not_wellFormed {l : AsmLine} (h : l.wellFormed = false) : assemble l = none := by
  simp [assemble, h]

theorem inByteRange_eq_false {x : Int} (h : x < 0 ∨ 255 < x) : inByteRange x = false := by
  rw [inByteRange, ← Bool.decide_and, decide_eq_false_iff_not]
  omega

theorem inHalfRange_eq_false {x : Int} (h : x < 0 ∨ 65535 < x) : inHalfRange x = false := by
  rw [inHalfRange, ← Bool.decide_and, decide_eq_false_iff_not]
  omega

/-- An operand shifted into B, beside OP. -/
theorem commandWord_byte (op : Byte) {b : Nat} (h : b ≤ 255) :
    commandWord op (BitVec.ofNat 8 b) 0#16 = BitVec.ofNat 32 (b <<< 8 ||| op.toNat) := by
  apply BitVec.eq_of_toNat_eq
  have hop := op.isLt
  rw [commandWord_toNat, ← Nat.shiftLeft_add_eq_or_of_lt hop, Nat.shiftLeft_eq]
  simp only [BitVec.toNat_ofNat]
  omega

/-- An operand shifted into H, beside OP and B. -/
theorem commandWord_half (op b : Byte) (n : Nat) :
    commandWord op b (BitVec.ofNat 16 n) = BitVec.ofNat 32 (n <<< 16 ||| (op.toNat + 256 * b.toNat)) := by
  apply BitVec.eq_of_toNat_eq
  have hop := op.isLt
  have hb := b.isLt
  rw [commandWord_toNat, ← Nat.shiftLeft_add_eq_or_of_lt (by omega), Nat.shiftLeft_eq]
  simp only [BitVec.toNat_ofNat]
  omega

/-- A source line that is a command's assembles to the command's word. -/
theorem assemble_map_encode {l : AsmLine} (i : Instr) {w : Word} (hl : i.toAsm = l) (hw : encode i = w) :
    (assemble l).map encode = some w := by
  rw [← hl, ← hw, assemble_toAsm, Option.map_some]

/-- Settles O17: a line in range is the line of a command, whose word is its shifted operand beside OP and B; a line
out of range is not well formed. -/
theorem assemblerExpandsToCommandWrites : Obligations.AssemblerExpandsToCommandWrites := by
  have hbyte {b : Nat} (h : b ≤ 255) : ((BitVec.ofNat 8 b).toNat : Int) = b := by
    rw [BitVec.toNat_ofNat]; omega
  have hhalf {n : Nat} (h : n ≤ 65535) : ((BitVec.ofNat 16 n).toNat : Int) = n := by
    rw [BitVec.toNat_ofNat]; omega
  refine ⟨fun _ => rfl, assemble_map_encode .crcInit rfl rfl, assemble_map_encode .enc rfl rfl, fun b h => ?_,
    fun n h => ?_, fun r h => ?_, fun r h => ?_, fun r h => ?_, fun b h => ?_, fun x h => ?_⟩
  · exact assemble_map_encode (.crcByte _) (congrArg AsmLine.crcByte (hbyte h)) (commandWord_byte 0x02#8 h)
  · exact assemble_map_encode (.dec _) (congrArg AsmLine.dec (hhalf h)) (commandWord_half 0x20#8 0x00#8 _)
  · exact assemble_map_encode (.intPass _) (congrArg AsmLine.intPass (hhalf h)) (commandWord_half 0x30#8 0x00#8 _)
  · exact assemble_map_encode (.intMask12 _) (congrArg AsmLine.intMask12 (hhalf h)) (commandWord_half 0x30#8 0x01#8 _)
  · exact assemble_map_encode (.intBool1 _) (congrArg AsmLine.intBool1 (hhalf h)) (commandWord_half 0x30#8 0x02#8 _)
  · exact assemble_of_not_wellFormed (inByteRange_eq_false h)
  · have hx := inHalfRange_eq_false h
    exact ⟨assemble_of_not_wellFormed hx, assemble_of_not_wellFormed hx, assemble_of_not_wellFormed hx,
      assemble_of_not_wellFormed hx⟩

end Sys2Proof

namespace Sys2Proof.Machine

/-! The response frame (R83 to R85). -/

/-- Register words are read behind the three header bytes, which do not matter. -/
theorem wordAt_eq_drop (s : List Byte) (k : Nat) :
    wordAt s k = be16 (byteAt (s.drop 3) (2 * k)) (byteAt (s.drop 3) (2 * k + 1)) := by
  simp only [wordAt, byteAt, List.getD_eq_getElem?_getD, List.getElem?_drop]
  rw [show 3 + (2 * k + 1) = 4 + 2 * k by omega]

theorem extractWords_congr {s t : List Byte} (h : s.drop 3 = t.drop 3) (n : Nat) :
    extractWords s n = extractWords t n := by
  simp only [extractWords, List.map_inj_left, wordAt_eq_drop, h, implies_true]

/-- Settles O46: the decoder compares the length and the CRC, and reads its words behind the header. -/
theorem headerBytesAreNotChecked : Obligations.HeaderBytesAreNotChecked := by
  intro s t n hlen hdrop hcrc
  simp only [decodeResponse, hlen, ne_eq, hcrc, extractWords_congr hdrop]

/-- A frame's last two bytes are its trailer, and its CRC covers the others (R144). -/
theorem crcPart_append_trailer (s : List Byte) (l h : Byte) : crcPart (s ++ [l, h]) = s := by
  simp [crcPart]

theorem crcTrailer_append_trailer (s : List Byte) (l h : Byte) : crcTrailer (s ++ [l, h]) = le16 l h := by
  simp [crcTrailer, byteAt]

theorem responseBody_length (h0 h1 h2 : Byte) (ws : List Half) :
    (responseBody h0 h1 h2 ws).length = 3 + 2 * ws.length := by
  simp [responseBody]
  omega

/-- A list of words sent high byte first reads back word by word. -/
theorem be16_byteAt_flatMap (ws : List Half) (rest : List Byte) {k : Nat} (hk : k < ws.length) :
    be16 (byteAt ((ws.flatMap fun w => [hi8 w, lo8 w]) ++ rest) (2 * k))
      (byteAt ((ws.flatMap fun w => [hi8 w, lo8 w]) ++ rest) (2 * k + 1)) = ws[k] := by
  induction ws generalizing k with
  | nil => exact absurd hk (Nat.not_lt_zero k)
  | cons w ws ih =>
    cases k with
    | zero => exact be16_hi8_lo8 w
    | succ k => exact ih (Nat.lt_of_succ_lt_succ hk)

theorem wordAt_wellFormedResponse (h0 h1 h2 : Byte) {ws : List Half} {k : Nat} (hk : k < ws.length) :
    wordAt (wellFormedResponse h0 h1 h2 ws) k = ws[k] := by
  rw [wordAt_eq_drop]
  exact be16_byteAt_flatMap ws _ hk

theorem extractWords_wellFormedResponse (h0 h1 h2 : Byte) {ws : List Half} {n : Nat} (hn : n ≤ ws.length) :
    extractWords (wellFormedResponse h0 h1 h2 ws) n = ws.take n := by
  apply List.ext_getElem
  · rw [extractWords_length, List.length_take_of_le hn]
  · intro k hk _
    rw [extractWords_length] at hk
    simp only [extractWords, List.getElem_map, List.getElem_range, List.getElem_take]
    exact wordAt_wellFormedResponse h0 h1 h2 (hk.trans_le hn)

theorem wellFormedResponse_length (h0 h1 h2 : Byte) (ws : List Half) :
    (wellFormedResponse h0 h1 h2 ws).length = 5 + 2 * ws.length := by
  simp only [wellFormedResponse, List.length_append, responseBody_length, List.length_cons, List.length_nil]
  omega

/-- A well-formed response passes the CRC comparison (R144). -/
theorem crc_wellFormedResponse (h0 h1 h2 : Byte) (ws : List Half) :
    crc16 (crcPart (wellFormedResponse h0 h1 h2 ws)) = crcTrailer (wellFormedResponse h0 h1 h2 ws) := by
  rw [wellFormedResponse, crcPart_append_trailer, crcTrailer_append_trailer, le16_lo8_hi8]

/-- A well-formed response decodes to its first `n` words. -/
theorem decodeResponse_wellFormedResponse (h0 h1 h2 : Byte) {ws : List Half} {n : Half} (hn : n.toNat ≤ ws.length) :
    decodeResponse (wellFormedResponse h0 h1 h2 ws) n = .ok (ws.take n.toNat) := by
  have hlen := wellFormedResponse_length h0 h1 h2 ws
  rw [decodeResponse_ok (by omega) (crc_wellFormedResponse h0 h1 h2 ws), extractWords_wellFormedResponse h0 h1 h2 hn]

/-- Settles O39: the decoder answers the first `n` words, and `dec` stores them from REGS[0] on. -/
theorem responseRoundTrip : Obligations.ResponseRoundTrip := by
  intro s h0 h1 h2 ws n hn hholds
  obtain ⟨-, hframe⟩ := hholds
  have hn126 : n.toNat ≤ 126 := by
    apply count_le_of_accepted (b := s.block)
    rw [hframe, wellFormedResponse_length]
    omega
  have hdecode := hframe ▸ decodeResponse_wellFormedResponse h0 h1 h2 hn
  have hlen : (ws.take n.toNat).length = n.toNat := List.length_take_of_le hn
  refine ⟨_, execDec_of_ok hdecode, rfl,
    putDecoded_decCount_toNat s.block.clearDecoded (ws.take n.toNat) hn126, fun k hk => ?_, fun k hk => ?_⟩
  · have hreg := putDecoded_clear_get s.block (ws.take n.toNat) n k.isLt
    rw [if_pos (by omega)] at hreg
    simp only [Block.putStatus_regs, Fin.getElem_fin, hreg]
    simp [hk, hk.trans_le hn]
  · exact (putDecoded_clear_get s.block (ws.take n.toNat) n k.isLt).trans (if_neg (by omega))

end Sys2Proof.Machine

/-! PROOFS, family 40_crc: the CRC engine's commands (O22, O23), the laws of the CRC step and of the CRC of a sequence
(O31, O32, O34, O36), and the stream of `crc.byte` commands (O35). -/

namespace Sys2Proof.Machine

/-! The CRC step (R101). -/

/-- Folding a byte into the accumulator is iterating on the accumulator and on the byte apart. -/
theorem crcStep_eq_xor (c : Half) (b : Byte) : crcStep c b = crcIters 8 c ^^^ crcIters 8 (b.setWidth 16) :=
  crcIters_xor 8 c (b.setWidth 16)

theorem setWidth_hi8 (c : Half) : (hi8 c).setWidth 16 = c >>> 8 := by
  apply BitVec.eq_of_toNat_eq
  have hlt := (hi8 c).isLt
  rw [BitVec.toNat_setWidth, Nat.mod_eq_of_lt (by omega), hi8_toNat, BitVec.toNat_ushiftRight,
    Nat.shiftRight_eq_div_pow]

/-- Settles O32: the accumulator's high byte is only shifted down; its low byte meets the polynomial as the byte does,
so the table's entry of their XOR stands for both. -/
theorem crcStepByTable : Obligations.CrcStepByTable := by
  intro table htable c b
  calc crcStep c b
      = (c >>> 8) ^^^ crcIters 8 ((lo8 c).setWidth 16) ^^^ crcIters 8 (b.setWidth 16) := by
        rw [crcStep_eq_xor, crcIters_split, setWidth_hi8]
    _ = (c >>> 8) ^^^ crcIters 8 ((lo8 c ^^^ b).setWidth 16) := by
        rw [BitVec.setWidth_xor, crcIters_xor, BitVec.xor_assoc]
    _ = (c >>> 8) ^^^ table (lo8 c ^^^ b) := by
        rw [htable, crcStep, BitVec.zero_xor]

/-- Settles O31: the shift leaves bit 15 clear, and the constant has it set. -/
theorem crcTopBitTellsXor : Obligations.CrcTopBitTellsXor := by
  refine fun c => ⟨?_, rfl⟩
  have hshift : (c >>> 1).getLsbD 15 = false := by simp
  have hpoly : Config.crcPoly.getLsbD 15 = true := by decide
  unfold crcIter
  split
  · next hbit => rw [BitVec.getLsbD_xor, hshift, hpoly, hbit]; rfl
  · next hbit => rw [hshift, eq_false_of_ne_true hbit]

/-! The CRC of a sequence (R102). -/

/-- Folding in the accumulator's own low byte clears it and brings the high byte down. -/
theorem crcStep_lo8 (c : Half) : crcStep c (lo8 c) = (hi8 c).setWidth 16 := by
  rw [crcStep_eq_xor, crcIters_split, BitVec.xor_assoc, BitVec.xor_self, BitVec.xor_zero]

theorem crcStep_self (b : Byte) : crcStep (b.setWidth 16) b = 0#16 := by
  rw [crcStep_eq_xor, BitVec.xor_self]

/-- Settles O34: the CRC's low byte leaves its high byte in the accumulator, which the high byte clears. -/
theorem crcResidueIsZero : Obligations.CrcResidueIsZero := by
  intro s
  rw [crc16_append, crcFold_cons, crcFold_cons, crcFold_nil, crcStep_lo8, crcStep_self]

/-- Settles O36, by folding the bytes of the test vectors. -/
theorem crcKnownValues : Obligations.CrcKnownValues := by
  unfold Obligations.CrcKnownValues
  decide +kernel

/-! The commands (R104, R105). -/

theorem exec_crcInit (s : State) :
    exec .crcInit s = .next { s with block := (s.block.putCrcAcc Config.crcInit).putStatus .ok } := rfl

/-- Settles O22: OP 0x01 has one legal word, and `crc.init` ends with its two writes. -/
theorem crcInitStartsStream : Obligations.CrcInitStartsStream := by
  refine ⟨decode_encode .crcInit, fun v s hop hv => ?_, exec_crcInit⟩
  have hne : v.toNat ≠ 1 := fun h => hv (BitVec.eq_of_toNat_eq h)
  obtain ⟨why, hd⟩ := (illegalWordsByField.1 v).mpr (by omega)
  exact execute_of_illegal hd s

/-- The word of `crc.byte`: its byte in B, beside OP. -/
theorem encode_crcByte (b : Byte) : encode (.crcByte b) = b.setWidth 32 <<< 8 ||| 0x00000002#32 := by
  calc encode (.crcByte b)
      = commandWord 0x02#8 (BitVec.ofNat 8 b.toNat) 0x0000#16 := by rw [BitVec.ofNat_toNat, BitVec.setWidth_eq]; rfl
    _ = BitVec.ofNat 32 (b.toNat <<< 8 ||| 0x02) := commandWord_byte 0x02#8 (Nat.le_of_lt_succ b.isLt)
    _ = b.setWidth 32 <<< 8 ||| 0x00000002#32 := by
      rw [BitVec.ofNat_or]
      rfl

/-- Settles O23: the word is the command's, OP 0x02 with a nonzero H is no row's, and `crc.byte` ends with its two
writes; the corner cases are evaluated. -/
theorem crcByteFoldsByte : Obligations.CrcByteFoldsByte := by
  refine ⟨fun b => ?_, fun v s hop hH => ?_, exec_crcByte, by decide, by decide, by decide, by decide, by decide,
    by decide⟩
  · rw [← encode_crcByte, decode_encode]
  · obtain ⟨why, hd⟩ := (illegalWordsByField.1 v).mpr (by omega)
    exact execute_of_illegal hd s

/-! The stream (R106). -/

theorem streamedBytes_cons (a : HostAction) (l : List HostAction) :
    streamedBytes (a :: l) = (streamedByte a).toList ++ streamedBytes l := by
  unfold streamedBytes
  cases h : streamedByte a with
  | none => exact List.filterMap_cons_none h
  | some b => exact List.filterMap_cons_some h

theorem streamedByte_of_ne_cmd {idx : Index} (h : idx ≠ cmdIndex) (v : Word) : streamedByte (.write idx v) = none :=
  if_neg h

theorem streamedByte_of_illegal {v : Word} {why : Reject} (h : decode v = .illegal why) :
    streamedByte (.write cmdIndex v) = none := by
  simp [streamedByte, h]

/-- The host's own writes do not reach CRC_ACC (R54). -/
theorem HostWrite.crcAcc_eq {v : Word} {a b : Block} {k : Slot} (h : HostWrite v a k b) : b.crcAcc = a.crcAcc := by
  cases h <;> simp

/-- A command leaves CRC_ACC unless its footprint holds it (R61). -/
theorem exec_crcAcc_eq {i : Instr} {s t : State} (h : exec i s = .next t) (hi : writesSlot i .crcAcc = false) :
    t.block.crcAcc = s.block.crcAcc := setWidth_word_inj (exec_readSlot h hi)

/-- Every command but `crc.init` folds the byte it streams, if any, into CRC_ACC. -/
theorem exec_folds_streamedByte {v : Word} {i : Instr} {s t : State} (hd : decode v = .command i)
    (hi : i ≠ .crcInit) (h : exec i s = .next t) :
    t.block.crcAcc = crcFold s.block.crcAcc (streamedByte (.write cmdIndex v)).toList := by
  cases i with
  | crcInit => exact absurd rfl hi
  | crcByte b =>
    cases h
    simp [streamedByte, hd]
  | enc | dec | intPass | intMask12 | intBool1 =>
    rw [exec_crcAcc_eq h rfl]
    simp [streamedByte, hd]

/-- An action that keeps the stream open folds the byte it streams, if any, into CRC_ACC and asserts no reset. -/
theorem ActionEffect.folds_streamedByte {s t : State} {a : HostAction} (h : ActionEffect s a t)
    (h0 : s.resetAsserted = false) (ha : keepsStream a = true) :
    t.resetAsserted = false ∧ t.block.crcAcc = crcFold s.block.crcAcc (streamedByte a).toList := by
  cases h with
  | read => exact ⟨h0, rfl⟩
  | releaseReset => exact ⟨rfl, rfl⟩
  | assertReset => exact absurd ha (by decide)
  | underReset _ _ h1 => exact Bool.noConfusion (h0.symm.trans h1)
  | command v i _ _ hd he =>
    have hi : i ≠ .crcInit := by
      rintro rfl
      rw [← encode_of_decode hd] at ha
      exact absurd ha (by decide)
    exact ⟨(exec_next_environment he).1.trans h0, exec_folds_streamedByte hd hi he⟩
  | illegal v why _ hd =>
    rw [streamedByte_of_illegal hd]
    exact ⟨h0, rfl⟩
  | hostWrite idx v b _ hk hw =>
    have hidx : idx ≠ cmdIndex := fun e => hk (e ▸ cmdIndex_slot)
    rw [streamedByte_of_ne_cmd hidx]
    exact ⟨h0, hw.crcAcc_eq⟩

/-- A run over actions that keep the stream open folds the bytes they stream into CRC_ACC. -/
theorem run_folds_streamedBytes (actions rest : List HostAction) {s : State} (h0 : s.resetAsserted = false)
    (hkeep : ∀ a ∈ actions, keepsStream a = true) (hi : s.inbox = actions ++ rest) :
    ∃ t : State, Sys2Proof.core.run actions.length s = .next t ∧ t.inbox = rest ∧
      t.block.crcAcc = crcFold s.block.crcAcc (streamedBytes actions) := by
  induction actions generalizing s with
  | nil => exact ⟨s, rfl, hi, rfl⟩
  | cons a actions ih =>
    obtain ⟨ha, hkeep⟩ := List.forall_mem_cons.mp hkeep
    obtain ⟨u, hu, heffect⟩ := perform_effect a { s with inbox := actions ++ rest }
    obtain ⟨hu0, hacc⟩ := heffect.folds_streamedByte h0 ha
    obtain ⟨t, hrun, hrest, ht⟩ := ih hu0 hkeep heffect.inbox_eq
    refine ⟨t, (core_run_succ ((step_of_action hi).trans hu) _).trans hrun, hrest, ?_⟩
    rw [ht, hacc, streamedBytes_cons, crcFold_append]

/-- Settles O35: `crc.init`, as reset does, leaves CRC_ACC at the CRC's initial value, and the run folds the stream
into it. -/
theorem crcStreamEqualsCrc : Obligations.CrcStreamEqualsCrc := by
  constructor
  · intro s actions rest h0 hkeep hi
    have hinit := (step_cmd h0 hi).trans (execute_of_command (decode_encode .crcInit) _)
    obtain ⟨t, hrun, ht⟩ := run_folds_streamedBytes actions rest
      (s := { s with
        inbox := actions ++ rest
        block := (s.block.putCrcAcc Config.crcInit).putStatus .ok }) h0 hkeep rfl
    exact ⟨t, (core_run_succ hinit _).trans hrun, ht⟩
  · intro s actions rest h0 hreset hkeep hi
    obtain ⟨t, hrun, hrest, hacc⟩ := run_folds_streamedBytes actions rest h0 hkeep hi
    rw [hreset] at hacc
    exact ⟨t, hrun, hrest, hacc⟩

end Sys2Proof.Machine

/-! PROOFS, family 41_encoder: the request frame `enc` builds (O24), which the decoder's checks accept (O37). -/

namespace Sys2Proof.Machine

/-! The request frame (R120). -/

/-- The frame is its payload and the payload's CRC, low byte first. -/
theorem buildRequest_toList (a f : Byte) (s n : Half) :
    (buildRequest a f s n).toList = requestPayload a f s n ++
      [lo8 (crc16 (requestPayload a f s n)), hi8 (crc16 (requestPayload a f s n))] := rfl

theorem buildRequest_take_six (a f : Byte) (s n : Half) :
    (buildRequest a f s n).toList.take 6 = requestPayload a f s n := rfl

/-- The frame passes the CRC comparison (R144). -/
theorem crc_buildRequest (a f : Byte) (s n : Half) :
    crc16 (crcPart (buildRequest a f s n).toList) = crcTrailer (buildRequest a f s n).toList := by
  rw [buildRequest_toList, crcPart_append_trailer, crcTrailer_append_trailer, le16_lo8_hi8]

/-- Settles O37: the trailer is the payload's CRC split into its bytes, and the decoder checks only the length and that
CRC. -/
theorem requestFramePassesCrcCheck : Obligations.RequestFramePassesCrcCheck := by
  intro a f s n
  constructor
  · rw [buildRequest_take_six]
    exact le16_lo8_hi8 _
  · intro m hm
    have hlen : 3 + 2 * m.toNat ≤ (buildRequest a f s n).toList.length := by rwa [Vector.length_toList]
    exact ⟨_, decodeResponse_ok hlen (crc_buildRequest a f s n)⟩

/-! `enc` (R121). -/

/-- The block after `enc`. -/
def Block.afterEnc (b : Block) : Block :=
  (b.putTxFrame (buildRequest b.reqAddr b.reqFc b.reqStart b.reqCount)).putStatus .ok

theorem exec_enc (s : State) : exec .enc s = .next { s with block := s.block.afterEnc } := rfl

theorem Block.afterEnc_txbuf (b : Block) :
    b.afterEnc.txbuf = buildRequest b.reqAddr b.reqFc b.reqStart b.reqCount := by
  simp [Block.afterEnc]

/-- `enc` keeps the request registers, so a second one builds the same frame. -/
theorem exec_enc_afterEnc (s : State) :
    exec .enc { s with block := s.block.afterEnc } = .next { s with block := s.block.afterEnc } := rfl

/-- Settles O24: OP 0x10 has one legal word, `enc` ends with its three writes, and the frame's bytes are the bytes of
the request registers and of their CRC. -/
theorem encBuildsRequestFrame : Obligations.EncBuildsRequestFrame := by
  refine ⟨decode_encode .enc, fun v s hop hv => ?_, fun s => ?_, by decide +kernel⟩
  · have hne : v.toNat ≠ 0x10 := fun h => hv (BitVec.eq_of_toNat_eq h)
    obtain ⟨why, hd⟩ := (illegalWordsByField.1 v).mpr (by omega)
    exact execute_of_illegal hd s
  · refine ⟨_, exec_enc s, rfl, s.block.afterEnc_txbuf, ?_⟩
    simp only [Block.afterEnc_txbuf, buildRequest_take_six]
    exact ⟨rfl, rfl, hi8_toNat _, lo8_toNat _, hi8_toNat _, lo8_toNat _, lo8_toNat _, hi8_toNat _,
      exec_enc_afterEnc s⟩

end Sys2Proof.Machine

/-! PROOFS, family 42_decoder: the three outcomes of `dec` (O25, O26, O27), its bounds (O40, O41) and its repetition
(O47); the CRC step loses nothing (O33), so a flipped bit is detected (O43); what well-formed and short frames decode to
(O38, O44, O45). -/

namespace Sys2Proof.Machine

/-! `dec`, by its two checks (R141, R142, R144). -/

theorem exec_dec_tooShort {n : Half} {s : State} (hlen : (rxFrame s.block).length < 3 + 2 * n.toNat) :
    exec (.dec n) s = .next { s with block := s.block.clearDecoded.putStatus .tooShort } :=
  execDec_of_tooShort (decodeResponse_tooShort hlen)

theorem exec_dec_crcMismatch {n : Half} {s : State} (hlen : 3 + 2 * n.toNat ≤ (rxFrame s.block).length)
    (hcrc : crc16 (crcPart (rxFrame s.block)) ≠ crcTrailer (rxFrame s.block)) :
    exec (.dec n) s = .next { s with block := s.block.clearDecoded.putStatus .crcMismatch } :=
  execDec_of_crcMismatch (decodeResponse_crcMismatch hlen hcrc)

theorem exec_dec_ok {n : Half} {s : State} (hlen : 3 + 2 * n.toNat ≤ (rxFrame s.block).length)
    (hcrc : crc16 (crcPart (rxFrame s.block)) = crcTrailer (rxFrame s.block)) :
    exec (.dec n) s = .next { s with
      block := (s.block.clearDecoded.putDecoded (extractWords (rxFrame s.block) n.toNat) n).putStatus .ok } :=
  execDec_of_ok (decodeResponse_ok hlen hcrc)

/-- What state a `dec` leaves, and when. -/
theorem exec_dec_next {n : Half} {s t : State} (h : exec (.dec n) s = .next t) :
    ((rxFrame s.block).length < 3 + 2 * n.toNat ∧
      t = { s with block := s.block.clearDecoded.putStatus .tooShort }) ∨
    (3 + 2 * n.toNat ≤ (rxFrame s.block).length ∧ crc16 (crcPart (rxFrame s.block)) ≠ crcTrailer (rxFrame s.block) ∧
      t = { s with block := s.block.clearDecoded.putStatus .crcMismatch }) ∨
    (3 + 2 * n.toNat ≤ (rxFrame s.block).length ∧ crc16 (crcPart (rxFrame s.block)) = crcTrailer (rxFrame s.block) ∧
      t = { s with
        block := (s.block.clearDecoded.putDecoded (extractWords (rxFrame s.block) n.toNat) n).putStatus .ok }) := by
  rcases Nat.lt_or_ge (rxFrame s.block).length (3 + 2 * n.toNat) with hlen | hlen
  · rw [exec_dec_tooShort hlen] at h
    exact .inl ⟨hlen, (Host.Outcome.next.inj h).symm⟩
  · by_cases hcrc : crc16 (crcPart (rxFrame s.block)) = crcTrailer (rxFrame s.block)
    · rw [exec_dec_ok hlen hcrc] at h
      exact .inr (.inr ⟨hlen, hcrc, (Host.Outcome.next.inj h).symm⟩)
    · rw [exec_dec_crcMismatch hlen hcrc] at h
      exact .inr (.inl ⟨hlen, hcrc, (Host.Outcome.next.inj h).symm⟩)

/-- REGS after a successful `dec`: the frame's words, then zeros (R146). -/
theorem decoded_regs_get (b : Block) (n : Half) (k : Fin 126) :
    (b.clearDecoded.putDecoded (extractWords (rxFrame b) n.toNat) n).regs[k] =
      if k.val < n.toNat then wordAt (rxFrame b) k.val else 0#16 := by
  rw [Fin.getElem_fin, putDecoded_clear_get _ _ _ k.isLt, extractWords_length]
  split
  · next hk => exact extractWords_getD _ hk
  · rfl

/-- DEC_COUNT after a successful `dec` (R146). -/
theorem decoded_decCount_toNat {b : Block} {n : Half} (hlen : 3 + 2 * n.toNat ≤ (rxFrame b).length) :
    (b.clearDecoded.putDecoded (extractWords (rxFrame b) n.toNat) n).decCount.toNat = n.toNat :=
  putDecoded_decCount_toNat _ _ (count_le_of_accepted hlen)

/-- STATUS OK tells that the frame passed both checks. -/
theorem checks_of_status_ok {n : Half} {s t : State} (h : exec (.dec n) s = .next t) (hok : t.block.status = 1#3) :
    3 + 2 * n.toNat ≤ (rxFrame s.block).length ∧
      crc16 (crcPart (rxFrame s.block)) = crcTrailer (rxFrame s.block) := by
  rcases exec_dec_next h with ⟨-, rfl⟩ | ⟨-, -, rfl⟩ | ⟨hlen, hcrc, -⟩
  · exact absurd hok (by decide : ¬ 2#3 = 1#3)
  · exact absurd hok (by decide : ¬ 3#3 = 1#3)
  · exact ⟨hlen, hcrc⟩

/-- Settles O25: the frame is RX_LEN bytes long, and the length check comes before the CRC check. -/
theorem decTooShort : Obligations.DecTooShort := by
  constructor
  · intro s n hlegal hlen
    rw [← rxFrame_length_of_legal hlegal] at hlen
    exact exec_dec_tooShort hlen
  · intro s n hlegal hlen
    rw [← rxFrame_length_of_legal hlegal] at hlen
    by_cases hcrc : crc16 (crcPart (rxFrame s.block)) = crcTrailer (rxFrame s.block)
    · exact ⟨_, exec_dec_ok hlen hcrc, .inl rfl⟩
    · exact ⟨_, exec_dec_crcMismatch hlen hcrc, .inr rfl⟩

/-- Settles O40: a frame has at most 256 bytes, so one that passes the length check has a count of at most 126. -/
theorem decCapacity : Obligations.DecCapacity := by
  intro s t n hlegal h
  have hrx := rxFrame_length_of_legal hlegal
  refine ⟨fun hok => ?_, ?_⟩
  · obtain ⟨hlen, -⟩ := checks_of_status_ok h hok
    exact ⟨hlen.trans_eq hrx, count_le_of_accepted hlen⟩
  · rcases exec_dec_next h with ⟨-, rfl⟩ | ⟨hlen, -, rfl⟩ | ⟨hlen, -, rfl⟩
    · exact ⟨fun _ => rfl, Nat.zero_le _⟩
    · exact ⟨fun hn => by omega, Nat.zero_le _⟩
    · exact ⟨fun hn => by omega, (decoded_decCount_toNat hlen).trans_le (count_le_of_accepted hlen)⟩

/-- Settles O41: the bound is at least 3, for every count. -/
theorem tinyFramesAreTooShort : Obligations.TinyFramesAreTooShort := by
  intro s n hlegal
  have hlen : (rxFrame s.block).length < 3 + 2 * n.toNat := by
    rw [rxFrame_length_of_legal (by omega)]
    omega
  exact ⟨_, exec_dec_tooShort hlen, rfl, rfl⟩

/-- `dec` reads none of the fields it writes. -/
theorem exec_dec_overwrites (m : Half) (s : State) (c : BitVec 3) (r : Vector Half 126) (d : BitVec 7) :
    exec (.dec m) { s with block := { s.block with status := c, regs := r, decCount := d } } = exec (.dec m) s := by
  show execDec m _ = execDec m s
  unfold execDec
  rw [show rxFrame { s.block with status := c, regs := r, decCount := d } = rxFrame s.block from rfl]
  cases decodeResponse (rxFrame s.block) m <;> rfl

/-- Settles O47: `dec` writes STATUS, REGS and DEC_COUNT alone, and reads none of them. -/
theorem decCanBeRepeated : Obligations.DecCanBeRepeated := by
  intro s t n m h
  rcases exec_dec_next h with ⟨-, rfl⟩ | ⟨-, -, rfl⟩ | ⟨-, -, rfl⟩ <;>
    exact ⟨rfl, rfl, exec_dec_overwrites m s _ _ _⟩

/-! The CRC check in the bytes of RXBUF (R144). -/

theorem crcPart_rxFrame {b : Block} (hlegal : b.rxLen.toNat ≤ 256) :
    crcPart (rxFrame b) = b.rxbuf.toList.take (b.rxLen.toNat - 2) := by
  rw [crcPart, rxFrame_length_of_legal hlegal, rxFrame, List.take_take, Nat.min_eq_left (Nat.sub_le _ _)]

theorem crcTrailer_rxFrame {b : Block} (hlegal : b.rxLen.toNat ≤ 256) (hlen : 2 ≤ b.rxLen.toNat) :
    (crcTrailer (rxFrame b)).toNat = (b.rxbuf.toList.getD (b.rxLen.toNat - 2) 0#8).toNat +
      256 * (b.rxbuf.toList.getD (b.rxLen.toNat - 1) 0#8).toNat := by
  rw [crcTrailer, le16_toNat, rxFrame_length_of_legal hlegal, byteAt_rxFrame b (by omega), byteAt_rxFrame b (by omega)]

theorem crc_rxFrame_iff {b : Block} (hlegal : b.rxLen.toNat ≤ 256) (hlen : 2 ≤ b.rxLen.toNat) :
    crc16 (crcPart (rxFrame b)) = crcTrailer (rxFrame b) ↔
      (crc16 (b.rxbuf.toList.take (b.rxLen.toNat - 2))).toNat =
        (b.rxbuf.toList.getD (b.rxLen.toNat - 2) 0#8).toNat +
          256 * (b.rxbuf.toList.getD (b.rxLen.toNat - 1) 0#8).toNat := by
  rw [← BitVec.toNat_inj, crcPart_rxFrame hlegal, crcTrailer_rxFrame hlegal hlen]

/-- Settles O26: the frame's trailer is its last two bytes, wherever the words of the count end. -/
theorem decCrcMismatch : Obligations.DecCrcMismatch := by
  rintro s n l rfl hlegal hlen hcrc
  have hbytes := mt (crc_rxFrame_iff hlegal (by omega)).mp hcrc
  exact exec_dec_crcMismatch (hlen.trans_eq (rxFrame_length_of_legal hlegal).symm) hbytes

/-- A word inside the frame, by the bytes of RXBUF (R145). -/
theorem wordAt_rxFrame_toNat {b : Block} {k : Nat} (hk : 4 + 2 * k < b.rxLen.toNat) :
    (wordAt (rxFrame b) k).toNat = 256 * (b.rxbuf.toList.getD (3 + 2 * k) 0#8).toNat +
      (b.rxbuf.toList.getD (4 + 2 * k) 0#8).toNat := by
  rw [wordAt, be16_toNat, byteAt_rxFrame b (by omega), byteAt_rxFrame b hk]

/-- Settles O27: the count fits REGS and DEC_COUNT, and its words lie inside the frame. -/
theorem decExtractsWords : Obligations.DecExtractsWords := by
  rintro s n l rfl hlegal hlen hcrc
  have hrx := rxFrame_length_of_legal hlegal
  have hbytes := (crc_rxFrame_iff hlegal (by omega)).mpr hcrc
  refine ⟨_, exec_dec_ok (by omega) hbytes, rfl,
    decoded_decCount_toNat (hlen.trans_eq hrx.symm), fun k hk => ?_, fun k hk => ?_⟩
  · rw [Block.putStatus_regs, decoded_regs_get, if_pos hk, wordAt_rxFrame_toNat (by omega)]
  · rw [Block.putStatus_regs, decoded_regs_get, if_neg (by omega)]

/-! The CRC step loses nothing (R151). -/

theorem crcIters_injective (k : Nat) : Function.Injective (crcIters k) := by
  intro x y h
  rw [← BitVec.xor_eq_zero_iff, ← crcIters_xor] at h
  exact BitVec.xor_eq_zero_iff.mp (crcIters_eq_zero k h)

theorem crcStep_inj_acc {c d : Half} {b : Byte} (h : crcStep c b = crcStep d b) : c = d :=
  (BitVec.xor_left_inj _).mp (crcIters_injective 8 h)

theorem crcStep_inj_byte {c : Half} {a b : Byte} (h : crcStep c a = crcStep c b) : a = b := by
  have hwide : a.setWidth 16 = b.setWidth 16 := (BitVec.xor_right_inj c).mp (crcIters_injective 8 h)
  simpa [BitVec.setWidth_setWidth_of_le] using congrArg (BitVec.setWidth 8) hwide

/-- Settles O33: no two values iterate to one, and only 0 iterates to 0. -/
theorem crcStepIsInvertible : Obligations.CrcStepIsInvertible := by
  refine ⟨fun c b => ⟨fun h => BitVec.xor_eq_zero_iff.mp (crcIters_eq_zero 8 h), ?_⟩,
    fun _ _ _ => crcStep_inj_acc, fun _ _ _ => crcStep_inj_byte⟩
  rintro rfl
  exact crcStep_self b

theorem crcFold_inj_acc (s : List Byte) {c d : Half} (h : crcFold c s = crcFold d s) : c = d := by
  induction s generalizing c d with
  | nil => exact h
  | cons b s ih => exact crcStep_inj_acc (ih h)

/-- A sequence with one byte replaced has another CRC, unless the byte is the old one. -/
theorem crcFold_set_inj {s : List Byte} {i : Nat} {v : Byte} {c : Half} (h : crcFold c (s.set i v) = crcFold c s) :
    s.set i v = s := by
  induction s generalizing i c with
  | nil => rfl
  | cons b s ih =>
    cases i with
    | zero => rw [List.set_cons_zero, crcStep_inj_byte (crcFold_inj_acc s h)]
    | succ i => rw [List.set_cons_succ, ih h]

/-! One changed byte in an accepted frame (R156). -/

theorem byteAt_set_same {s : List Byte} {i : Nat} (hi : i < s.length) (v : Byte) : byteAt (s.set i v) i = v := by
  simp [byteAt, hi]

theorem byteAt_set_ne {s : List Byte} {i j : Nat} (hij : i ≠ j) (v : Byte) : byteAt (s.set i v) j = byteAt s j := by
  simp [byteAt, hij]

theorem byteAt_take {s : List Byte} {i m : Nat} (hi : i < m) : byteAt (s.take m) i = byteAt s i := by
  simp only [byteAt, List.getD_eq_getElem?_getD, List.getElem?_take_of_lt hi]

theorem crcPart_set (s : List Byte) (i : Nat) (v : Byte) : crcPart (s.set i v) = (crcPart s).set i v := by
  rw [crcPart, List.length_set, List.take_set, crcPart]

/-- Of the frames that differ in one byte, one at most passes the CRC check: the byte changes the CRC where it stands
before the trailer, and the trailer where it stands in it. -/
theorem byte_eq_of_crc_set {s : List Byte} {i : Nat} {v : Byte} (hi : i < s.length)
    (hs : crc16 (crcPart s) = crcTrailer s) (hset : crc16 (crcPart (s.set i v)) = crcTrailer (s.set i v)) :
    v = byteAt s i := by
  rw [crcPart_set] at hset
  by_cases htrailer : s.length - 2 ≤ i
  · have hsame : (crcPart s).set i v = crcPart s :=
      List.set_eq_of_length_le (by rw [crcPart, List.length_take]; omega)
    rw [hsame, hs, crcTrailer, crcTrailer, List.length_set] at hset
    obtain ⟨hlow, hhigh⟩ := le16_inj hset
    obtain rfl | rfl : i = s.length - 2 ∨ i = s.length - 1 := by omega
    · rw [hlow, byteAt_set_same hi]
    · rw [hhigh, byteAt_set_same hi]
  · have hsame : crcTrailer (s.set i v) = crcTrailer s := by
      rw [crcTrailer, List.length_set, byteAt_set_ne (by omega), byteAt_set_ne (by omega), crcTrailer]
    rw [hsame, ← hs] at hset
    have hpart : i < (crcPart s).length := by rw [crcPart, List.length_take]; omega
    calc v = byteAt ((crcPart s).set i v) i := (byteAt_set_same hpart v).symm
      _ = byteAt (crcPart s) i := by rw [crcFold_set_inj hset]
      _ = byteAt s i := byteAt_take (by omega)

/-- Storing a byte in RXBUF stores it in the frame. -/
theorem rxFrame_set (b : Block) (i : Fin 256) (v : Byte) :
    rxFrame { b with rxbuf := b.rxbuf.set i v } = (rxFrame b).set i v := by
  rw [rxFrame, Vector.toList_set, List.take_set, rxFrame]

theorem xor_bit_ne (x : Byte) (k : Fin 8) : x ^^^ (1#8 <<< k.val) ≠ x := by
  have hbit : ∀ k : Fin 8, 1#8 <<< k.val ≠ 0#8 := by decide
  intro h
  exact hbit k ((BitVec.xor_right_inj x).mp (h.trans BitVec.xor_zero.symm))

/-- Settles O43: the frame keeps its length, and one changed byte fails its CRC check. -/
theorem singleBitFlipIsDetected : Obligations.SingleBitFlipIsDetected := by
  intro s t n i k hlegal hi h hok
  obtain ⟨hlen, hcrc⟩ := checks_of_status_ok h hok
  have hbyte : byteAt (rxFrame s.block) i = s.block.rxbuf[i] := by
    rw [byteAt_rxFrame s.block hi]
    simp
  have hset := rxFrame_set s.block i (s.block.rxbuf[i] ^^^ (1#8 <<< k.val))
  refine ⟨_, exec_dec_crcMismatch ?_ ?_, rfl, rfl, rfl⟩
  · rw [hset, List.length_set]
    exact hlen
  · rw [hset]
    intro hflip
    have hv := byte_eq_of_crc_set (by rwa [rxFrame_length_of_legal hlegal]) hcrc hflip
    exact xor_bit_ne _ k (hv.trans hbyte)

/-! Well-formed responses (R151, R155). -/

/-- Settles O38: the frame is the well-formed response of the one word. -/
theorem oneRegisterRoundTrip : Obligations.OneRegisterRoundTrip := by
  intro s a w hholds
  obtain ⟨t, ht, hstatus, hcount, hregs, -⟩ :=
    responseRoundTrip s a 0x03#8 0x02#8 [w] 1#16 (Nat.le_refl 1) hholds
  exact ⟨t, ht, hstatus, BitVec.eq_of_toNat_eq hcount, (Option.some.inj (hregs 0 Nat.zero_lt_one)).symm⟩

theorem byteAt_append {s : List Byte} {i : Nat} (hi : i < s.length) (t : List Byte) :
    byteAt (s ++ t) i = byteAt s i := List.getD_append s t 0#8 i hi

theorem extractWords_append {s : List Byte} {n : Nat} (hlen : 3 + 2 * n ≤ s.length) (t : List Byte) :
    extractWords (s ++ t) n = extractWords s n := by
  simp only [extractWords, List.map_inj_left, List.mem_range]
  intro k hk
  rw [wordAt, byteAt_append (by omega), byteAt_append (by omega), wordAt]

/-- Folding in the low byte of a value leaves its high byte. -/
theorem crcStep_le16 (l h : Byte) : crcStep (le16 l h) l = h.setWidth 16 := by
  simpa [le16_eq_be16] using crcStep_lo8 (le16 l h)

/-- A sequence, its CRC and a zero byte pass the CRC check: the CRC of all but the last two bytes is the high byte,
which the trailer shows with the zero above it. -/
theorem crc_append_trailing_zero {p : List Byte} {l h : Byte} (hcrc : crc16 p = le16 l h) :
    crc16 (crcPart (p ++ [l, h] ++ [0x00#8])) = crcTrailer (p ++ [l, h] ++ [0x00#8]) := by
  rw [show p ++ [l, h] ++ [0x00#8] = p ++ [l] ++ [h, 0x00#8] by simp, crcPart_append_trailer,
    crcTrailer_append_trailer, crc16_append, hcrc, crcFold_cons, crcFold_nil, crcStep_le16]
  simp [le16]

/-- Settles O44: the zero byte keeps the CRC check passed, and stands behind the words. -/
theorem trailingZeroAccepted : Obligations.TrailingZeroAccepted := by
  intro h0 h1 h2 ws n hn
  have hlen : 3 + 2 * n.toNat ≤ (wellFormedResponse h0 h1 h2 ws).length := by
    rw [wellFormedResponse_length]
    omega
  refine ⟨decodeResponse_wellFormedResponse h0 h1 h2 hn, ?_⟩
  have hlenZero : 3 + 2 * n.toNat ≤ (wellFormedResponse h0 h1 h2 ws ++ [0x00#8]).length := by
    rw [List.length_append]
    omega
  rw [decodeResponse_ok hlenZero (crc_append_trailing_zero (le16_lo8_hi8 _).symm), extractWords_append hlen,
    extractWords_wellFormedResponse h0 h1 h2 hn]

/-! Short frames (R150). -/

theorem decodeResponse_eq_ok {s : List Byte} {n : Half} {ws : List Half} (h : decodeResponse s n = .ok ws) :
    crc16 (crcPart s) = crcTrailer s ∧ ws = extractWords s n.toNat := by
  rcases decodeResponse_cases s n with ⟨-, hd⟩ | ⟨-, -, hd⟩ | ⟨-, hcrc, hd⟩ <;> rw [hd] at h
  · cases h
  · cases h
  · exact ⟨hcrc, (DecodeResult.ok.inj h).symm⟩

/-- The last two bytes of a frame that passes the CRC check are the CRC of the bytes before them, low byte first. -/
theorem trailer_bytes {s : List Byte} (h : crc16 (crcPart s) = crcTrailer s) :
    byteAt s (s.length - 2) = lo8 (crc16 (s.take (s.length - 2))) ∧
      byteAt s (s.length - 1) = hi8 (crc16 (s.take (s.length - 2))) := by
  rw [← crcPart, h, crcTrailer, le16_eq_be16, lo8_be16, hi8_be16]
  exact ⟨rfl, rfl⟩

theorem extractWords_getLast? (s : List Byte) {n : Nat} (hn : 1 ≤ n) :
    (extractWords s n).getLast? = some (be16 (byteAt s (1 + 2 * n)) (byteAt s (2 + 2 * n))) := by
  rw [extractWords, List.getLast?_map, List.getLast?_range, if_neg (by omega), Option.map_some, wordAt,
    show 3 + 2 * (n - 1) = 1 + 2 * n by omega, show 4 + 2 * (n - 1) = 2 + 2 * n by omega]

/-- Settles O45: the last word is read at bytes 1 + 2n and 2 + 2n, which both stand in the trailer of a frame of 3 + 2n
bytes; of one byte more, the second is the trailer's first. -/
theorem shortFramesReadTrailerAsData : Obligations.ShortFramesReadTrailerAsData := by
  intro s n ws hn h
  obtain ⟨hcrc, rfl⟩ := decodeResponse_eq_ok h
  obtain ⟨hlow, hhigh⟩ := trailer_bytes hcrc
  rw [extractWords_getLast? s hn]
  constructor
  · intro hlen
    rw [show s.length - 2 = 1 + 2 * n.toNat by omega] at hlow hhigh
    rw [show s.length - 1 = 2 + 2 * n.toNat by omega] at hhigh
    rw [hlow, hhigh]
  · intro hlen
    rw [show s.length - 2 = 2 + 2 * n.toNat by omega] at hlow
    rw [Option.map_some, lo8_be16, hlow]

end Sys2Proof.Machine


/-! PROOFS, family 43_interpreter: the interpreter commands, their words, results and frames (O28). -/

namespace Sys2Proof.Machine

/-- A command word, its operand shifted into H beside OP and B. -/
theorem commandWord_eq_shift (op b : Byte) (h : Half) :
    commandWord op b h = h.setWidth 32 <<< 16 ||| BitVec.ofNat 32 (op.toNat + 256 * b.toNat) := by
  calc commandWord op b h
      = commandWord op b (BitVec.ofNat 16 h.toNat) := by rw [BitVec.ofNat_toNat, BitVec.setWidth_eq]
    _ = BitVec.ofNat 32 (h.toNat <<< 16 ||| (op.toNat + 256 * b.toNat)) := commandWord_half op b h.toNat
    _ = h.setWidth 32 <<< 16 ||| BitVec.ofNat 32 (op.toNat + 256 * b.toNat) := by
      rw [BitVec.ofNat_or]
      rfl

/-- A command whose operand stands in H, read back from its shifted operand beside OP and B. -/
theorem decode_shift {i : Instr} {op b : Byte} {h : Half} (he : encode i = commandWord op b h) :
    decode (h.setWidth 32 <<< 16 ||| BitVec.ofNat 32 (op.toNat + 256 * b.toNat)) = .command i := by
  rw [← commandWord_eq_shift, ← he, decode_encode]

/-- Masking with the low `k` bits is the remainder by 2 to the `k`. -/
theorem and_lowBits (r : Half) {m : Half} {k : Nat} (hm : m.toNat = 2 ^ k - 1) :
    r &&& m = BitVec.ofNat 16 (r.toNat % 2 ^ k) := by
  rw [← Nat.and_two_pow_sub_one_eq_mod, ← hm, ← BitVec.toNat_and, BitVec.ofNat_toNat, BitVec.setWidth_eq]

theorem interpret_mask12 (r : Half) : interpret .mask12 r = (.integer, BitVec.ofNat 16 (r.toNat % 4096)) :=
  congrArg (Prod.mk ValueKind.integer) (and_lowBits r (k := 12) rfl)

theorem interpret_bool1 (r : Half) : interpret .bool1 r = (.state, BitVec.ofNat 16 (r.toNat % 2)) :=
  congrArg (Prod.mk ValueKind.state) (and_lowBits r (k := 1) rfl)

/-- Settles O28: each word carries the raw word in H, and each command ends with the writes of its rule's result. -/
theorem interpreterResults : Obligations.InterpreterResults := by
  intro s r
  refine ⟨decode_shift (i := .intPass r) rfl, decode_shift (i := .intMask12 r) rfl,
    decode_shift (i := .intBool1 r) rfl, exec_interpCommand .pass r s, ?_, ?_⟩
  · exact (exec_interpCommand .mask12 r s).trans (by rw [interpret_mask12]; rfl)
  · exact (exec_interpCommand .bool1 r s).trans (by rw [interpret_bool1]; rfl)

end Sys2Proof.Machine


/-! PROOFS, family 60_exceptions: an illegal word changes STATUS alone (O19), the block never stops (O20), and the codes
a command reports (O30). -/

namespace Sys2Proof.Machine

/-! Illegal words (R203). -/

/-- STATUS stands at index 0x001 only, so putting a code leaves every other index as it reads. -/
theorem portRead_putStatus_of_ne {idx : Index} (h : idx ≠ 0x001#9) (c : StatusCode) (b : Block) :
    portRead idx (b.putStatus c) = portRead idx b := by
  have hslot : slotOf idx ≠ .status := fun e => h (slotOf_inj (j := 0x001#9) e (by simp [e]))
  exact readSlot_putStatus hslot c b

/-- Settles O19: the word decodes to no command, so the step puts ILLEGAL_CMD and does nothing else. -/
theorem illegalCommandChangesOnlyStatus : Obligations.IllegalCommandChangesOnlyStatus := by
  intro s v rest hnone h0 hi
  cases hd : decode v with
  | command i => exact absurd hd (hnone i)
  | illegal why =>
    have hstep := (step_cmd h0 hi).trans (execute_of_illegal hd _)
    exact ⟨_, hstep, rfl, rfl, h0, rfl, fun idx hidx => portRead_putStatus_of_ne hidx .illegalCmd s.block⟩

/-! No stop (R200). -/

theorem exec_answers (i : Instr) (s : State) : ∃ t, exec i s = .next t := by
  obtain ⟨c, b, he⟩ := exec_eq_endCommand i s
  exact ⟨_, he.trans (endCommand_eq c b s)⟩

theorem step_answers (s : State) : ∃ t, step s = .next t := by
  cases hi : s.inbox with
  | nil => exact ⟨s, step_of_empty hi⟩
  | cons a rest =>
    obtain ⟨t, ht, -⟩ := perform_effect a { s with inbox := rest }
    exact ⟨t, (step_of_action hi).trans ht⟩

theorem runsSafely (k : Nat) (s : State) : RunsSafely k s := by
  induction k generalizing s with
  | zero => exact ⟨s, core_run_zero s⟩
  | succ k ih =>
    obtain ⟨u, hu⟩ := step_answers s
    obtain ⟨t, ht⟩ := ih u
    exact ⟨t, (core_run_succ hu k).trans ht⟩

/-- Settles O20: every command ends with `endCommand`, every action has an effect, and a run is a chain of steps. -/
theorem blockNeverStops : Obligations.BlockNeverStops := ⟨exec_answers, step_answers, runsSafely⟩

/-! Outcome codes (R201, R202). -/

theorem endCommand_status {c : StatusCode} {b : Block} {s t : State} (h : endCommand c b s = .next t) :
    t.block.status = c.code := by
  rw [endCommand_next h]
  rfl

/-- Settles O30: `dec` reports what its two checks find, and every other command ends with OK. -/
theorem commandOutcomeCodes : Obligations.CommandOutcomeCodes := by
  intro i s t h
  cases i with
  | dec n =>
    rcases exec_dec_next h with ⟨-, rfl⟩ | ⟨-, -, rfl⟩ | ⟨-, -, rfl⟩
    · exact .inr ⟨.inl rfl, n, rfl⟩
    · exact .inr ⟨.inr rfl, n, rfl⟩
    · exact .inl rfl
  | crcInit | crcByte | enc | intPass | intMask12 | intBool1 => exact .inl (endCommand_status h)

end Sys2Proof.Machine

/-! PROOFS, family 70_reset_and_hazards: the reset input and the reset state (O1 to O5, O49), what `dec` reads (O42),
and the host agent's readings and poll cycle (O51 to O54). -/

namespace Sys2Proof.Machine

/-! The reset input (R220 to R222). -/

/-- Settles O1: the step performs the assertion, which puts `Block.reset`, and its buffers are filled with zeros. -/
theorem assertedResetPutsListedValues : Obligations.AssertedResetPutsListedValues := by
  intro s rest hi
  exact ⟨_, step_of_action hi, rfl, rfl, rfl, rfl, rfl, rfl, rfl, rfl, rfl, rfl, rfl, rfl, rfl, rfl, rfl,
    fun i => Vector.getElem_replicate i.isLt, fun i => Vector.getElem_replicate i.isLt,
    fun i => Vector.getElem_replicate i.isLt, rfl⟩

theorem perform_read_under_reset {s : State} (h : s.resetAsserted = true) (idx : Index) :
    perform (.read idx) s = .next (s.reply 0#32) := by
  simp [readReply, h]

/-- Settles O2: the step performs the action; under reset a read answers 0 and a write does nothing. -/
theorem accessUnderResetHasNoEffect : Obligations.AccessUnderResetHasNoEffect := by
  refine ⟨fun s rest hi => step_of_action hi, fun s idx rest h1 hi => ?_, fun s idx v rest h1 hi => ?_⟩
  · exact (step_of_action hi).trans (perform_read_under_reset (s := { s with inbox := rest }) h1 idx)
  · exact (step_of_action hi).trans (perform_write_under_reset (s := { s with inbox := rest }) h1 idx v)

/-- Settles O3: a step without an action answers the state, and a release changes the level alone. -/
theorem idleBlockWaits : Obligations.IdleBlockWaits :=
  ⟨fun _ hi => step_of_empty hi, fun _ _ hi => step_of_action hi⟩

/-! The reset state (R220). -/

/-- Settles O49: the reset block meets the block's invariant, and the reset input is released. -/
theorem resetMeetsInvariant : Obligations.ResetMeetsInvariant := State.inv_of_released rfl Block.reset_inv

/-- All but three fields are 0 at reset. -/
theorem readSlot_reset {k : Slot} (hcrc : k ≠ .crcAcc) (hfc : k ≠ .reqFc) (hcount : k ≠ .reqCount) :
    readSlot Block.reset k = 0#32 := by
  cases k with
  | crcAcc => exact absurd rfl hcrc
  | reqFc => exact absurd rfl hfc
  | reqCount => exact absurd rfl hcount
  | txbuf i | regs i | rxbuf i => simp [readSlot, Block.reset]
  | _ => rfl

/-- Settles O4: the three fields that are not 0 at reset have one index each. -/
theorem portImageAfterReset : Obligations.PortImageAfterReset := by
  intro idx
  have hslot {j : Index} (hj : idx ≠ j) (hr : slotOf j ≠ .reserved) : slotOf idx ≠ slotOf j :=
    fun e => hj (slotOf_inj e (e ▸ hr))
  split_ifs with hcrc hfc hcount
  · subst hcrc; rfl
  · subst hfc; rfl
  · subst hcount; rfl
  · exact readSlot_reset (hslot hcrc (by decide)) (hslot hfc (by decide)) (hslot hcount (by decide))

theorem keepsStream_crcByte (b : Byte) : keepsStream (issue (.crcByte b)) = true := by
  have hne : encode (.crcByte b) ≠ encode .crcInit := fun e => by
    have hd := decode_encode (.crcByte b)
    rw [e, decode_encode] at hd
    cases hd
  simp [keepsStream, issue, hne]

/-- A list of `crc.byte` commands streams its operands. -/
theorem streamedBytes_crcBytes (bytes : List Byte) :
    streamedBytes (bytes.map fun b => issue (.crcByte b)) = bytes := by
  induction bytes with
  | nil => rfl
  | cons b bytes ih =>
    have hb : streamedByte (issue (.crcByte b)) = some b := by simp [streamedByte, issue, decode_encode]
    rw [List.map_cons, streamedBytes_cons, hb, ih]
    rfl

/-- Settles O5: reset leaves CRC_ACC as `crc.init` does, the request registers at 0, 3, 0 and 1, and RX_LEN at 0. -/
theorem commandsUsableAfterReset : Obligations.CommandsUsableAfterReset := by
  refine ⟨fun i => exec_answers i State.reset, fun bytes => ?_, ⟨_, exec_enc State.reset, ?_⟩, fun n => ?_⟩
  · obtain ⟨t, hrun, hinbox, hacc⟩ := run_folds_streamedBytes (bytes.map fun b => issue (.crcByte b)) []
      (s := { State.reset with inbox := bytes.map fun b => issue (.crcByte b) }) rfl
      (List.forall_mem_map.mpr fun b _ => keepsStream_crcByte b) (List.append_nil _).symm
    rw [List.length_map] at hrun
    rw [streamedBytes_crcBytes] at hacc
    exact ⟨t, hrun, hinbox, hacc⟩
  · rw [Block.afterEnc_txbuf]
    decide +kernel
  · obtain ⟨t, ht, hstatus, -⟩ := tinyFramesAreTooShort State.reset n (by decide)
    exact ⟨t, ht, hstatus⟩

/-! What `dec` reads (R231). -/

/-- Settles O42: the frames are equal, and what `dec` writes is the decoder's answer on the frame. -/
theorem decIgnoresAllButTheFrame : Obligations.DecIgnoresAllButTheFrame := by
  intro s s' n hlen hbytes
  have hframe : rxFrame s.block = rxFrame s'.block := rxFrame_congr hlen hbytes
  cases hd : decodeResponse (rxFrame s.block) n with
  | tooShort => exact ⟨_, _, execDec_of_tooShort hd, execDec_of_tooShort (hframe ▸ hd), rfl, rfl, rfl⟩
  | crcMismatch => exact ⟨_, _, execDec_of_crcMismatch hd, execDec_of_crcMismatch (hframe ▸ hd), rfl, rfl, rfl⟩
  | ok ws => exact ⟨_, _, execDec_of_ok hd, execDec_of_ok (hframe ▸ hd), rfl, rfl, rfl⟩

/-! A reading's record (R237, R240, R241): the exchange alone decides it. -/

/-- The record of a reading whose decoder answers `d`. -/
def DecodeResult.record (r : ReadingSpec) (time : Nat) : DecodeResult → Record
  | .tooShort => .diagnostic r.name .tooShort
  | .crcMismatch => .diagnostic r.name .crcMismatch
  | .ok words => .output r.name (readingValue r.mode (words.getD 0 0#16)) time

/-- The record of a reading after an exchange. -/
def Exchange.record (r : ReadingSpec) (x : Exchange) : Record :=
  match x.answer with
  | .ioError => .diagnostic r.name .ioError
  | .bytes bytes => (decodeResponse (readLimit bytes) r.registerCount).record r x.timestamp

/-- The bytes of a reading's request (R120), which REQ_ADDR and REQ_FC take part in. -/
def requestBytes (b : Block) (r : ReadingSpec) : List Byte :=
  (buildRequest b.reqAddr b.reqFc r.startAddress r.registerCount).toList

theorem requestBytes_congr {s t : State} (h : KeepsAddress s t) (r : ReadingSpec) :
    requestBytes t.block r = requestBytes s.block r := by
  rw [requestBytes, requestBytes, h.1, h.2]

/-- REGS[0] after a successful `dec` is the first decoded word, or 0. -/
theorem decoded_regs_zero (b : Block) (ws : List Half) (n : Half) :
    (b.clearDecoded.putDecoded ws n).regs[0] = ws.getD 0 0#16 := by
  rw [putDecoded_clear_get]
  cases ws <;> rfl

/-- STATUS and REGS[0] after a reading's `dec` stand for the decoder's answer. -/
theorem exec_dec_record {r : ReadingSpec} {t u : State} (time : Nat) (h : exec (.dec r.registerCount) t = .next u) :
    (if u.block.status = 1#3 then Record.output r.name (readingValue r.mode u.block.regs[0]) time
      else .diagnostic r.name (failureOf (u.block.status.setWidth 32))) =
    (decodeResponse (rxFrame t.block) r.registerCount).record r time := by
  cases hd : decodeResponse (rxFrame t.block) r.registerCount with
  | tooShort =>
    cases (execDec_of_tooShort hd).symm.trans h
    rfl
  | crcMismatch =>
    cases (execDec_of_crcMismatch hd).symm.trans h
    rfl
  | ok ws =>
    cases (execDec_of_ok hd).symm.trans h
    exact (if_pos rfl).trans (by rw [Block.putStatus_regs, decoded_regs_zero]; rfl)

/-- A reading from a state not under reset sends its request, leaves REQ_ADDR and REQ_FC to the next one, and records
what its exchange decides. -/
theorem pollReading_spec (r : ReadingSpec) (x : Exchange) {s : State} (h0 : s.resetAsserted = false) :
    ∃ p, pollReading r x s = .next p ∧ p.state.resetAsserted = false ∧ KeepsAddress s p.state ∧
      p.sent = requestBytes s.block r ∧ p.record = x.record r := by
  obtain ⟨answer, time⟩ := x
  cases answer with
  | ioError => exact pollReading_ioError r time h0
  | bytes bytes =>
    obtain ⟨t, u, ⟨-, hframe⟩, hdec, hu0, hku, hpoll⟩ := pollReading_bytes r bytes time h0
    obtain ⟨p, hp, hsent, hp0, hkp, hrecord⟩ := concludeReading_spec r time (requestBytes s.block r) hu0
    refine ⟨p, hpoll.trans hp, hp0, ⟨hkp.1.trans hku.1, hkp.2.trans hku.2⟩, hsent, ?_⟩
    rw [hrecord, exec_dec_record time hdec, hframe]
    rfl

/-- A cycle sends the readings' requests in order and records what each one's own exchange decides (R238). -/
theorem pollCycle_spec (readings : List (ReadingSpec × Exchange)) {s : State} (h0 : s.resetAsserted = false) :
    ∃ c, pollCycle readings s = .next c ∧ c.sent = readings.map (fun q => requestBytes s.block q.1) ∧
      c.records = readings.map fun q => q.2.record q.1 := by
  induction readings generalizing s with
  | nil => exact ⟨_, rfl, rfl, rfl⟩
  | cons q readings ih =>
    obtain ⟨r, x⟩ := q
    obtain ⟨p, hp, hp0, hk, hsent, hrecord⟩ := pollReading_spec r x h0
    obtain ⟨c, hc, hsents, hrecords⟩ := ih hp0
    refine ⟨⟨c.state, p.sent :: c.sent, p.record :: c.records⟩, ?_, ?_, ?_⟩
    · rw [pollCycle, hp, andThen_next, hc, andThen_next]
    · simp only [hsent, hsents, requestBytes_congr hk, List.map_cons]
    · simp only [hrecord, hrecords, List.map_cons]

/-! Records of well-formed and of failed responses. -/

theorem readLimit_of_length_le {bytes : List Byte} (h : bytes.length ≤ 256) : readLimit bytes = bytes :=
  List.take_of_length_le h

/-- A well-formed response the read buffer can hold is recorded with the value of its first word. -/
theorem record_wellFormedResponse (r : ReadingSpec) (h0 h1 h2 : Byte) {w : Half} {ws : List Half} (time : Nat)
    (hn : r.registerCount.toNat ≤ (w :: ws).length) (hlen : (w :: ws).length ≤ 125) :
    Exchange.record r ⟨.bytes (wellFormedResponse h0 h1 h2 (w :: ws)), time⟩ =
      .output r.name (readingValue r.mode (if r.registerCount = 0#16 then 0#16 else w)) time := by
  have hlimit : readLimit (wellFormedResponse h0 h1 h2 (w :: ws)) = wellFormedResponse h0 h1 h2 (w :: ws) :=
    readLimit_of_length_le (by rw [wellFormedResponse_length]; omega)
  have hfirst : ((w :: ws).take r.registerCount.toNat).getD 0 0#16 = if r.registerCount = 0#16 then 0#16 else w := by
    split_ifs with hzero
    · rw [hzero]; rfl
    · have hpos : 0 < r.registerCount.toNat := Nat.pos_of_ne_zero fun e => hzero (BitVec.eq_of_toNat_eq e)
      simp [hpos]
  simp only [Exchange.record, hlimit, decodeResponse_wellFormedResponse h0 h1 h2 hn, DecodeResult.record, hfirst]

/-- Settles O51: the reading sends its request and records its exchange, which is a well-formed response. -/
theorem readingEndToEnd : Obligations.ReadingEndToEnd := by
  intro s r h0 h1 h2 w ws time hs hn hlen
  obtain ⟨p, hp, -, -, hsent, hrecord⟩ :=
    pollReading_spec r ⟨.bytes (wellFormedResponse h0 h1 h2 (w :: ws)), time⟩ hs
  exact ⟨p, hp, hsent, hrecord.trans (record_wellFormedResponse r h0 h1 h2 time hn hlen)⟩

/-- Settles O52: the record is the exchange's, and the decoder's checks fail as the response's bytes do. -/
theorem failedReadingRecords : Obligations.FailedReadingRecords := by
  intro s r time hs
  have hrecorded {x : Exchange} {kind : FailureKind} (hx : x.record r = .diagnostic r.name kind) :
      ∃ p, pollReading r x s = .next p ∧ p.record = .diagnostic r.name kind := by
    obtain ⟨p, hp, -, -, -, hrecord⟩ := pollReading_spec r x hs
    exact ⟨p, hp, hrecord.trans hx⟩
  refine ⟨hrecorded rfl, fun bytes hlimit hlen => hrecorded ?_, fun bytes hlimit hlen hcrc => hrecorded ?_⟩
  · simp only [Exchange.record, readLimit_of_length_le hlimit, decodeResponse_tooShort hlen, DecodeResult.record]
  · simp only [Exchange.record, readLimit_of_length_le hlimit, decodeResponse_crcMismatch hlen hcrc,
      DecodeResult.record]

/-- Settles O53: in the cycle and alone, a reading's record is the one its exchange decides. -/
theorem readingsAreIsolated : Obligations.ReadingsAreIsolated := by
  intro s readings hs
  obtain ⟨c, hc, -, hrecords⟩ := pollCycle_spec readings hs
  refine ⟨c, hc, by rw [hrecords, List.length_map], fun k r x hk => ?_⟩
  obtain ⟨p, hp, -, -, -, hrecord⟩ := pollReading_spec r x (s := State.reset) rfl
  exact ⟨p, hp, by rw [hrecords, List.getElem?_map, hk, hrecord]; rfl⟩

/-! The default reading table (R180, R224). -/

/-- Boot leaves the slave address in REQ_ADDR and changes nothing else. -/
theorem performAll_bootActions {s : State} (h0 : s.resetAsserted = false) (slave : Byte) :
    performAll (bootActions slave) s = .next { s with block := s.block.putReqAddr slave } := by
  have hwrite : perform (.write 0x003#9 (slave.setWidth 32)) s =
      .next { s with block := s.block.putReqAddr slave } := by
    rw [perform_write h0]
    show setBlock (s.block.putReqAddr _) s = _
    rw [setWidth_byte]
    rfl
  exact performAll_cons hwrite []

/-- Settles O54: the cycle sends each reading's request and records its exchange, a response of one word. -/
theorem pollCycleOverReadingTable : Obligations.PollCycleOverReadingTable := by
  refine ⟨by decide, fun s slave w1 w2 w3 t1 t2 t3 hs hfc => ?_⟩
  have hrecord (r : ReadingSpec) (w : Half) (time : Nat) (hone : r.registerCount = 1#16) :
      Exchange.record r ⟨.bytes (wellFormedResponse slave 0x03#8 0x02#8 [w]), time⟩ =
        .output r.name (readingValue r.mode w) time := by
    rw [record_wellFormedResponse r _ _ _ time (by simp [hone]) (by simp), hone]
    rfl
  have hboot := performAll_bootActions hs slave
  obtain ⟨c, hc, hsent, hrecords⟩ := pollCycle_spec (s := { s with block := s.block.putReqAddr slave })
    (readingTable.zip [⟨.bytes (wellFormedResponse slave 0x03#8 0x02#8 [w1]), t1⟩,
      ⟨.bytes (wellFormedResponse slave 0x03#8 0x02#8 [w2]), t2⟩,
      ⟨.bytes (wellFormedResponse slave 0x03#8 0x02#8 [w3]), t3⟩]) hs
  refine ⟨_, c, hboot, hc, ?_, ?_⟩
  · simpa [readingTable, requestBytes, hfc] using hsent
  · simpa [readingTable, hrecord, readingValue] using hrecords

end Sys2Proof.Machine
